-- ==== Sys2Proof/Word.lean ====
section
/-! DEFINITION. Word.lean: the widths of spec R6, R11 and R150, and the split of a 16-bit seed into its
two bytes (spec R13). Every datum is an unsigned bit vector of a fixed width. -/
namespace Sys2Proof

/-- One bit: an output bit or the feedback bit `F` (spec R150). -/
abbrev Bit := BitVec 1

/-- One byte: `hi`, `lo`, `last_value`, `rsp_data`, an operand field (spec R6, R150). -/
abbrev Byte := BitVec 8

/-- A 16-bit value of the register pair, `{hi, lo} = hi * 256 + lo` (spec R13, R40). -/
abbrev Seed := BitVec 16

/-- One 24-bit command word, bit 23 the most significant (spec R11, R60). -/
abbrev CmdWord := BitVec 24

/-- Bits [15:8] of a 16-bit value: the byte `hi` (spec R13). -/
def Seed.hiByte (x : Seed) : Byte := x.extractLsb' 8 8

/-- Bits [7:0] of a 16-bit value: the byte `lo` (spec R13). -/
def Seed.loByte (x : Seed) : Byte := x.extractLsb' 0 8

end Sys2Proof
end

