-- ==== Sys2Proof/Syntax.lean ====
section
/-! DEFINITION. Syntax.lean: the command set LFSR16-CMD v1 (spec R2), one constructor per row of
spec/opcode_table.json, in the table's order. -/
namespace Sys2Proof

/-- A decoded command word (spec R64). The eight commands of spec R2, and the reserved class of opcodes 0x8
to 0xF, which is a row of the opcode table and whose effect is the IllegalCommand response (spec R66). -/
inductive Instr where
  /-- `init` (spec R100): format N, OP 0x0. -/
  | init
  /-- `set_seed hi, lo` (spec R102): format S, OP 0x1; A is the new `hi`, B the new `lo`. -/
  | setSeed (hi lo : Byte)
  /-- `fix_seed` (spec R104): format N, OP 0x2. -/
  | fixSeed
  /-- `advance_bit` (spec R122): format N, OP 0x3. -/
  | advanceBit
  /-- `advance_bits n` (spec R123): format C, OP 0x4; B is `n`. -/
  | advanceBits (n : Byte)
  /-- `get_bit` (spec R140): format N, OP 0x5. -/
  | getBit
  /-- `get_bits n` (spec R141): format C, OP 0x6; B is `n`. -/
  | getBits (n : Byte)
  /-- `get_byte` (spec R142): format N, OP 0x7. -/
  | getByte
  /-- A word with bit 23 set (spec R66); `any` is bits [22:0]. -/
  | reserved (any : BitVec 23)
  deriving DecidableEq, Repr

end Sys2Proof
end

