-- ==== Sys2Proof/Decode.lean ====
section
/-! DEFINITION. Decode.lean: the fields of a command word (spec R61), the total decoder (spec R65), the
encoder (spec R62, R63, R64), and the opcode table's rows (spec R64). -/
namespace Sys2Proof

/-- OP, bits [23:20] (spec R61). -/
def opField (w : CmdWord) : BitVec 4 := w.extractLsb' 20 4

/-- RSV, bits [19:16] (spec R61). -/
def rsvField (w : CmdWord) : BitVec 4 := w.extractLsb' 16 4

/-- A, bits [15:8] (spec R61). -/
def aField (w : CmdWord) : Byte := w.extractLsb' 8 8

/-- B, bits [7:0] (spec R61). -/
def bField (w : CmdWord) : Byte := w.extractLsb' 0 8

/-- Bits [22:0] of a reserved word (spec R64, last row). -/
def reservedPayload (w : CmdWord) : BitVec 23 := w.extractLsb' 0 23

/-- Why a word with a legal opcode is no command (spec R161). -/
inductive DecodeError where
  /-- RSV is nonzero (spec R161 (b)). -/
  | reservedFieldNonzero
  /-- An operand field that the format does not use is nonzero (spec R161 (c), (d)). -/
  | unusedOperandNonzero
  deriving DecidableEq, Repr

/-- What decoding a word answers. -/
inductive Decoded where
  /-- The word is an instruction of the opcode table. -/
  | instr (i : Instr)
  /-- The word raises IllegalCommand (spec R67). -/
  | illegal (e : DecodeError)
  deriving DecidableEq, Repr

/-- Format N: fields A and B must be 0 (spec R63). -/
def decodeFormatN (i : Instr) (a b : Byte) : Decoded :=
  if a = 0#8 ∧ b = 0#8 then .instr i else .illegal .unusedOperandNonzero

/-- Format C: field A must be 0, and B is the count (spec R63). -/
def decodeFormatC (mk : Byte → Instr) (a b : Byte) : Decoded :=
  if a = 0#8 then .instr (mk b) else .illegal .unusedOperandNonzero

/-- Format S: A is `hi` and B is `lo`, any values (spec R63, R41). -/
def decodeFormatS (mk : Byte → Byte → Instr) (a b : Byte) : Decoded :=
  .instr (mk a b)

/-- The decoder, total on all 2^24 words, its checks in the order of spec R65 and R165: the reserved opcodes,
RSV, then the case on the opcode. The last case is opcode 7: the first check has taken 8 and above. -/
def decode (w : CmdWord) : Decoded :=
  if 8 ≤ (opField w).toNat then .instr (.reserved (reservedPayload w))
  else if rsvField w ≠ 0#4 then .illegal .reservedFieldNonzero
  else
    match (opField w).toNat with
    | 0 => decodeFormatN .init (aField w) (bField w)
    | 1 => decodeFormatS .setSeed (aField w) (bField w)
    | 2 => decodeFormatN .fixSeed (aField w) (bField w)
    | 3 => decodeFormatN .advanceBit (aField w) (bField w)
    | 4 => decodeFormatC .advanceBits (aField w) (bField w)
    | 5 => decodeFormatN .getBit (aField w) (bField w)
    | 6 => decodeFormatC .getBits (aField w) (bField w)
    | _ => decodeFormatN .getByte (aField w) (bField w)

/-- A word of OP, A and B with RSV = 0 (spec R61, R62). -/
def commandWord (op : BitVec 4) (a b : Byte) : CmdWord := op ++ 0#4 ++ a ++ b

/-- The encoder: the word of each instruction, from the opcode map of spec R64. -/
def encode : Instr → CmdWord
  | .init => commandWord 0x0#4 0#8 0#8
  | .setSeed hi lo => commandWord 0x1#4 hi lo
  | .fixSeed => commandWord 0x2#4 0#8 0#8
  | .advanceBit => commandWord 0x3#4 0#8 0#8
  | .advanceBits n => commandWord 0x4#4 0#8 n
  | .getBit => commandWord 0x5#4 0#8 0#8
  | .getBits n => commandWord 0x6#4 0#8 n
  | .getByte => commandWord 0x7#4 0#8 0#8
  | .reserved any => 1#1 ++ any

/-- A row of spec/opcode_table.json: a word `w` is of the row when `w &&& mask = pattern`. -/
structure OpcodeRow where
  mask : CmdWord
  pattern : CmdWord
  deriving DecidableEq, Repr

/-- Is the word of this row? -/
def OpcodeRow.holds (r : OpcodeRow) (w : CmdWord) : Bool := w &&& r.mask == r.pattern

/-- The opcode table's row of each instruction: the `mask` and `match` of spec/opcode_table.json (spec R64). -/
def opcodeRow : Instr → OpcodeRow
  | .init => ⟨0xFFFFFF#24, 0x000000#24⟩
  | .setSeed _ _ => ⟨0xFF0000#24, 0x100000#24⟩
  | .fixSeed => ⟨0xFFFFFF#24, 0x200000#24⟩
  | .advanceBit => ⟨0xFFFFFF#24, 0x300000#24⟩
  | .advanceBits _ => ⟨0xFFFF00#24, 0x400000#24⟩
  | .getBit => ⟨0xFFFFFF#24, 0x500000#24⟩
  | .getBits _ => ⟨0xFFFF00#24, 0x600000#24⟩
  | .getByte => ⟨0xFFFFFF#24, 0x700000#24⟩
  | .reserved _ => ⟨0x800000#24, 0x800000#24⟩

/-- The command word that the opcode table's numbering gives for `w`, `nbits` bits long: the word is one
24-bit word (spec R60, R70), and a bit above `nbits` is 0. -/
def tableWord (nbits w : Nat) : CmdWord := BitVec.ofNat 24 (w % 2 ^ nbits)

/-- The instruction the decoder reads from a table word; none where it refuses. -/
def decodeTableWord (nbits w : Nat) : Option Instr :=
  match decode (tableWord nbits w) with
  | .instr i => some i
  | .illegal _ => none

end Sys2Proof
end

