-- ==== Sys2Proof/Machine/Flags.lean ====
section
/-! DEFINITION. Machine/Flags.lean: the block has no condition flags (spec R28). This file holds what it has in
their place: the status codes (spec R164) and the two tests a command makes (spec R104, R141). -/
namespace Sys2Proof.Machine

/-- The status a completed command reports (spec R164). -/
inductive Status where
  | ok
  | invalidArgument
  | illegalCommand
  deriving DecidableEq, Repr

/-- The two-bit code of a status (spec R164). -/
def Status.code : Status → BitVec 2
  | .ok => 0#2
  | .invalidArgument => 1#2
  | .illegalCommand => 2#2

/-- The status of a two-bit code; none for 3, which is reserved (spec R164, I10). -/
def Status.ofCode (c : BitVec 2) : Option Status :=
  if c = 0#2 then some .ok
  else if c = 1#2 then some .invalidArgument
  else if c = 2#2 then some .illegalCommand
  else none

/-- The conditions that end a command in an error (spec R161, R162). -/
inductive CommandError where
  | illegalCommand
  | invalidArgument
  deriving DecidableEq, Repr

/-- The status each error reports (spec R164). -/
def CommandError.status : CommandError → Status
  | .illegalCommand => .illegalCommand
  | .invalidArgument => .invalidArgument

/-- The zero-guard's test: the whole 16-bit register is zero (spec R104, R106). -/
def registerZero (hi lo : Byte) : Bool := hi == 0x00#8 && lo == 0x00#8

/-- The range test of `get_bits`: `1 <= n <= 8` (spec R141). -/
def countInRange (n : Nat) : Bool := decide (1 ≤ n) && decide (n ≤ 8)

end Sys2Proof.Machine
end

