-- ==== Sys2Proof/Machine/Operands.lean ====
section
/-! DEFINITION. Machine/Operands.lean: the operand forms of spec R63 and the bit helpers of spec R12 and R14. -/
namespace Sys2Proof.Machine

/-- `x[k]`, bit `k` of a byte, bit 0 the least significant (spec R12). -/
def bitAt (x : Byte) (k : Nat) : Bit := x.extractLsb' k 1

/-- `zext_8(b)` (spec R14). -/
def zext8 (b : Bit) : Byte := b.setWidth 8

/-- The count operand of format C: an unsigned value, 0 to 255 (spec R63). -/
def countOperand (n : Byte) : Nat := n.toNat

end Sys2Proof.Machine
end

