-- ==== Sys2Proof/Config.lean ====
section
/-! DEFINITION. Config.lean: what an implementation of the block fixes (the three parameters of spec R8, R9
and R10), and the free values: what spec R203 (I7) and R32 (I13) leave at 'any value'. -/
namespace Sys2Proof

/-- The implementation's parameters, as plain data. A model 'takes the value as an argument' (spec I1, I2,
I3): they stand in `State` as a field that no step writes, so that a statement about every state is a
statement about every value of the parameters (log 1). -/
structure Params where
  /-- `DEFAULT_SEED` (spec R8): what reset and `init` load into `{hi, lo}`. -/
  defaultSeed : Seed
  /-- `FALLBACK_SEED` (spec R9): what `fix_seed` writes over an all-zero register. -/
  fallbackSeed : Seed
  /-- `LAT` (spec R10) where it differs from the default table of spec R199: command word and cycles.
  There are finitely many command words, so every function `LAT` is such a list (log 2). -/
  latencyOverrides : List (CmdWord × Nat)
  deriving DecidableEq, Repr

/-- The spec's default parameters: `DEFAULT_SEED = FALLBACK_SEED = 0x0001` (spec R8, R9, D14, D15) and the
`LAT` table of spec R199. -/
def Params.specDefault : Params :=
  { defaultSeed := 0x0001#16, fallbackSeed := 0x0001#16, latencyOverrides := [] }

/-- The constraints on the parameters: both seeds have a low byte that is not zero (spec R8, R9; it implies
that the seed is not zero), and every latency is at least one cycle (spec R10). -/
def Params.wellFormed (p : Params) : Bool :=
  p.defaultSeed.loByte != 0#8 && p.fallbackSeed.loByte != 0#8 &&
    p.latencyOverrides.all (fun entry => decide (1 ≤ entry.2))

/-- The three observation ports (spec R35). -/
inductive ObsPort where
  | hi
  | lo
  | last
  deriving DecidableEq, Repr

/-- The sequencer's working values while a command is in flight (spec R32). None is architectural, and spec
I13 allows each of them any value. -/
structure SequencerWork where
  /-- the number of advances remaining -/
  advancesLeft : Nat
  /-- the partial result of `get_bits` -/
  partialResult : Byte
  /-- the snapshot of `get_byte` -/
  snapshot : Byte
  deriving DecidableEq, Repr, Inhabited

/-- FREE VALUE (log 3): what an observation port shows in a cycle with `cmd_ready = 0` (spec R203, I7: any
value). Applied to the number of the cycle. -/
opaque Config.freeObservation : ObsPort → Nat → Byte

/-- FREE VALUE (log 4): the sequencer's working values in a busy cycle (spec R32, I13: any value). Applied to
the number of the cycle. -/
opaque Config.freeSequencerWork : Nat → SequencerWork

end Sys2Proof
end

