-- ==== Sys2Proof/Machine/State.lean ====
section
/-! DEFINITION. Machine/State.lean: everything the spec gives the block (R20, R29, R32, R34), the host's side
of the ports (R35, R175), and why a step can stop. -/
namespace Sys2Proof.Machine

/-- Why the machine stops with a fault. -/
inductive Fault where
  /-- `rsp_status` reads 3. Raised by reading the status port (`State.readStatus`, Machine/Ports.lean), never
  by a command or a clock edge: code 3 is reserved and never produced, and a model that reads it 'is stuck'
  (spec R164, I10). SAFE. -/
  | reservedStatus
  deriving DecidableEq, Repr

/-- Why the model gives no meaning. -/
inductive Refusal where
  /-- An instruction without a meaning. No arm of `exec` raises it. SAFE. -/
  | notModelled (mnemonic : String)
  /-- `cmd_word` was not stable at the edge that accepts it. Raised by `clockEdge` (Machine/Clock.lean): such a
  value 'gives a command the spec does not define, and a model refuses such a run' (spec R204, I11). SAFE. -/
  | unstableCommandWord
  deriving DecidableEq, Repr

/-- What the host drives on `cmd_word` at a rising edge: a stable 24-bit value, or one that is not stable
there (spec R204). -/
inductive CmdPins where
  | stable (w : CmdWord)
  | unstable
  deriving DecidableEq, Repr

/-- The block's inputs at one rising edge of `clk` (spec R35). -/
structure EdgeInput where
  /-- `rst`: synchronous reset, active high (spec R190). -/
  rst : Bool
  /-- `cmd_valid`: the host presents a command (spec R196). -/
  cmdValid : Bool
  /-- `cmd_word`, read only at the accepting edge (spec R52, R196). -/
  cmdWord : CmdPins
  deriving DecidableEq, Repr

/-- The sequencer while a command is in flight (spec R32). -/
structure Sequencer where
  /-- the command being executed: `cmd_word` at the accepting edge (spec R52) -/
  command : CmdWord
  /-- how many more rising edges the command takes (spec R197) -/
  cyclesLeft : Nat
  /-- the working values of spec R32, of any value (spec I13; log 4) -/
  work : SequencerWork
  deriving DecidableEq, Repr

/-- The whole state, at a boundary between two clock edges. -/
structure State where
  /-- `hi`, the high byte of the LFSR register (spec R20, R21). -/
  hi : Byte
  /-- `lo`, the low byte of the LFSR register (spec R20, R22). -/
  lo : Byte
  /-- `last_value`, the most recent produced value (spec R20, R24). -/
  lastValue : Byte
  /-- `rsp_data` (spec R20, R29). -/
  rspData : Byte
  /-- `rsp_status`, two bits (spec R20, R29); its codes are in Machine/Flags.lean. -/
  rspStatus : BitVec 2
  /-- `rsp_valid`: a command completed in this cycle (spec R29, R197). -/
  rspValid : Bool
  /-- The command in flight (spec R32). `busy` (spec R29) is `inFlight.isSome`: one home for the two. -/
  inFlight : Option Sequencer
  /-- The implementation's parameters (spec R8, R9, R10); no step writes them (log 1). -/
  params : Params
  /-- THE MODEL'S OWN FIELD: how many rising edges have passed, the number of the cycle (spec R195). The free
  values are applied to it (log 5). -/
  cycle : Nat
  /-- THE HOST'S SIDE: what the host drives at the coming rising edges, first edge first; past its end the host
  drives nothing (log 6). -/
  inputs : List EdgeInput
  deriving DecidableEq, Repr

/-- The block as an edge with `rst = 1` leaves it (spec R34, R190), given the parameters, the number of the
cycle and the host's coming inputs. -/
def State.resetWith (p : Params) (cycle : Nat) (inputs : List EdgeInput) : State :=
  { hi := p.defaultSeed.hiByte
    lo := p.defaultSeed.loByte
    lastValue := 0x00#8
    rspData := 0x00#8
    rspStatus := 0#2
    rspValid := false
    inFlight := none
    params := p
    cycle := cycle
    inputs := inputs }

/-- The machine right after reset (spec R34, R191) with the spec's default parameters (spec R8, R9, R199), at
cycle 0, with nothing driven by the host (log 5, log 6). -/
def State.reset : State := State.resetWith Params.specDefault 0 []

end Sys2Proof.Machine
end

