-- ==== Sys2Proof/Machine/Ops.lean ====
section
/-! DEFINITION. Machine/Ops.lean: the operations every command is made of: writing the register pair, the
feedback and the step primitive (spec R120, R121), `respond` and `raise` (spec R15, R160), and reset (R190).
There is no memory (spec R31) and no return from an error (spec R168). -/
namespace Sys2Proof.Machine

/-- The feedback bit: the XOR of the taps 0, 2, 3 and 5 of `lo` (spec R120). -/
def feedback (lo : Byte) : Bit := bitAt lo 0 ^^^ bitAt lo 2 ^^^ bitAt lo 3 ^^^ bitAt lo 5

/-- The bit the next advance emits: the old `lo[0]` (spec R121). -/
def outputBit (lo : Byte) : Bit := bitAt lo 0

/-- The new `hi` of one advance: shifted right, the output bit into bit 7 (spec R121). -/
def advanceHi (hi lo : Byte) : Byte := (hi >>> 1) ||| (zext8 (outputBit lo) <<< 7)

/-- The new `lo` of one advance: shifted right, the feedback bit into bit 7 (spec R121). It is the map `L` of
spec R127. -/
def advanceLo (lo : Byte) : Byte := (lo >>> 1) ||| (zext8 (feedback lo) <<< 7)

/-- Both bytes of the register written in one transition (spec R44). -/
def State.writeRegister (s : State) (hi lo : Byte) : State := { s with hi := hi, lo := lo }

/-- A 16-bit seed written to the register pair (spec R13, R100, R104). -/
def State.writeSeed (s : State) (x : Seed) : State := s.writeRegister x.hiByte x.loByte

/-- `last_value <- v` (spec R15). -/
def State.writeLastValue (s : State) (v : Byte) : State := { s with lastValue := v }

/-- The register after one `step()`; the emitted bit is `outputBit s.lo` (spec R121). -/
def State.advance (s : State) : State := s.writeRegister (advanceHi s.hi s.lo) (advanceLo s.lo)

/-- `step()` done `n` times, the output bits discarded (spec R123). -/
def State.advanceTimes : Nat → State → State
  | 0, s => s
  | n + 1, s => State.advanceTimes n s.advance

/-- The packing loop of `get_bits` (spec R141), from position `i` with `left` rounds to go and the bits packed
so far in `r`: each emitted bit goes to bit `i`, and `i` counts up. Answers the packed byte and the state. -/
def State.packBits : (left i : Nat) → (r : Byte) → State → Byte × State
  | 0, _, r, s => (r, s)
  | left + 1, i, r, s => State.packBits left (i + 1) (r ||| (zext8 (outputBit s.lo) <<< i)) s.advance

/-- `respond(status, data)` (spec R15): writes the response registers, pulses `rsp_valid`, and ends the
command, so that the block is idle (spec R197). -/
def State.respond (s : State) (st : Status) (data : Byte) : State :=
  { s with rspStatus := st.code, rspData := data, rspValid := true, inFlight := none }

/-- TAKING AN ERROR, the block's one form of exception (spec R160, R167): the command ends with the error's
status and data 0x00, and nothing else is written. No state is saved, no mode changes and no control goes
anywhere, so there is no return from it: the block is idle and takes the next command (spec R168). -/
def State.raise (s : State) (e : CommandError) : State := s.respond e.status 0x00#8

/-- What an edge with `rst = 1` does (spec R190): every register takes its reset value and the sequencer is
discarded. The parameters, the cycle's number and the host's inputs are no registers of the block. -/
def State.applyReset (s : State) : State := State.resetWith s.params s.cycle s.inputs

/-- `busy` (spec R29): a command is in flight. -/
def State.busy (s : State) : Bool := s.inFlight.isSome

/-- The port `cmd_ready` (spec R35): `!busy`. -/
def State.cmdReady (s : State) : Bool := !s.busy

end Sys2Proof.Machine
end

