-- ==== Sys2Proof/Machine/Advance.lean ====
section
/-! DEFINITION. Machine/Advance.lean: the advance commands of spec 41_advance.md. -/
namespace Sys2Proof.Machine

/-- `advance_bit`: one advance; OK, the output bit; `last_value` kept (spec R122). -/
def execAdvanceBit (s : State) : Host.Outcome State Fault Refusal :=
  .next (s.advance.respond .ok (zext8 (outputBit s.lo)))

/-- `advance_bits n`: `n` advances, none for `n = 0`; OK, 0x00; `last_value` kept (spec R123). -/
def execAdvanceBits (n : Byte) (s : State) : Host.Outcome State Fault Refusal :=
  .next ((s.advanceTimes (countOperand n)).respond .ok 0x00#8)

end Sys2Proof.Machine
end

