-- ==== Sys2Proof/Machine/Illegal.lean ====
section
/-! DEFINITION. Machine/Illegal.lean: IllegalCommand (spec R161). -/
namespace Sys2Proof.Machine

/-- A reserved opcode, 0x8 to 0xF: IllegalCommand, whatever the other bits (spec R66, R161 (a)). -/
def execReserved (_any : BitVec 23) (s : State) : Host.Outcome State Fault Refusal :=
  .next (s.raise .illegalCommand)

/-- A word with a legal opcode that the decoder rejects: IllegalCommand, whichever check rejected it (spec R67,
R161 (b) to (d)). -/
def raiseIllegalWord (s : State) : Host.Outcome State Fault Refusal :=
  .next (s.raise .illegalCommand)

end Sys2Proof.Machine
end

