-- ==== Sys2Proof/Machine/Output.lean ====
section
/-! DEFINITION. Machine/Output.lean: the output commands of spec 42_output.md. -/
namespace Sys2Proof.Machine

/-- `last_value <- v` and `respond(OK, v)`: how each output command that succeeds ends (spec R24). -/
def State.deliver (s : State) (v : Byte) : State := (s.writeLastValue v).respond .ok v

/-- `get_bit`: one advance; the output bit to `last_value` and `rsp_data` (spec R140). -/
def execGetBit (s : State) : Host.Outcome State Fault Refusal :=
  .next (s.advance.deliver (zext8 (outputBit s.lo)))

/-- `get_bits n`: InvalidArgument unless `1 <= n <= 8`, with nothing written; else `n` advances, their bits
packed from bit 0 upward, to `last_value` and `rsp_data` (spec R141, R162). -/
def execGetBits (n : Byte) (s : State) : Host.Outcome State Fault Refusal :=
  if countInRange (countOperand n) then
    let packed := State.packBits (countOperand n) 0 0x00#8 s
    .next (packed.2.deliver packed.1)
  else .next (s.raise .invalidArgument)

/-- `get_byte`: a snapshot of `lo`, then 8 advances; the snapshot to `last_value` and `rsp_data` (spec R142). -/
def execGetByte (s : State) : Host.Outcome State Fault Refusal :=
  .next ((s.advanceTimes 8).deliver s.lo)

end Sys2Proof.Machine
end

