-- ==== Sys2Proof/Machine/Seed.lean ====
section
/-! DEFINITION. Machine/Seed.lean: the seed commands of spec 40_seed.md. -/
namespace Sys2Proof.Machine

/-- `init`: `{hi, lo} <- DEFAULT_SEED`; OK, 0x00 (spec R100). -/
def execInit (s : State) : Host.Outcome State Fault Refusal :=
  .next ((s.writeSeed s.params.defaultSeed).respond .ok 0x00#8)

/-- `set_seed hi, lo`: `hi <- A`, `lo <- B`, unchecked; OK, 0x00 (spec R102, R103). -/
def execSetSeed (hi lo : Byte) (s : State) : Host.Outcome State Fault Refusal :=
  .next ((s.writeRegister hi lo).respond .ok 0x00#8)

/-- `fix_seed`: `{hi, lo} <- FALLBACK_SEED` when both bytes are zero, else nothing; OK, 0x00 (spec R104). -/
def execFixSeed (s : State) : Host.Outcome State Fault Refusal :=
  .next ((if registerZero s.hi s.lo then s.writeSeed s.params.fallbackSeed else s).respond .ok 0x00#8)

end Sys2Proof.Machine
end

