-- ==== Sys2Proof/Machine/Dispatch.lean ====
section
/-! DEFINITION. Machine/Dispatch.lean: one arm per instruction, each the architectural effect of the command as
one transition (spec R16), its completion included. -/
namespace Sys2Proof.Machine

def exec (i : Instr) (s : State) : Host.Outcome State Fault Refusal :=
  match i with
  | .init => Sys2Proof.Machine.execInit s
  | .setSeed hi lo => Sys2Proof.Machine.execSetSeed hi lo s
  | .fixSeed => Sys2Proof.Machine.execFixSeed s
  | .advanceBit => Sys2Proof.Machine.execAdvanceBit s
  | .advanceBits n => Sys2Proof.Machine.execAdvanceBits n s
  | .getBit => Sys2Proof.Machine.execGetBit s
  | .getBits n => Sys2Proof.Machine.execGetBits n s
  | .getByte => Sys2Proof.Machine.execGetByte s
  | .reserved any => Sys2Proof.Machine.execReserved any s

end Sys2Proof.Machine
end

