-- ==== Sys2Proof/Machine/Timing.lean ====
section
/-! DEFINITION. Machine/Timing.lean: the latency `LAT` of a command (spec R10, R199). No command's effect
depends on it (spec R208). -/
namespace Sys2Proof.Machine

/-- The default `LAT` of an instruction: one advance a cycle, at least one cycle, and one for an error
(spec R199). -/
def defaultInstrLatency : Instr → Nat
  | .init => 1
  | .setSeed _ _ => 1
  | .fixSeed => 1
  | .advanceBit => 1
  | .advanceBits n => max 1 (countOperand n)
  | .getBit => 1
  | .getBits n => if countInRange (countOperand n) then countOperand n else 1
  | .getByte => 8
  | .reserved _ => 1

/-- The default `LAT` of a command word (spec R199); one cycle for a word that is illegal. -/
def defaultLatency (w : CmdWord) : Nat :=
  match decode w with
  | .instr i => defaultInstrLatency i
  | .illegal _ => 1

/-- `LAT(c)`: the parameter's own value where it gives one, else the default of spec R199 (log 2). -/
def latencyOf (p : Params) (w : CmdWord) : Nat :=
  match p.latencyOverrides.lookup w with
  | some cycles => cycles
  | none => defaultLatency w

end Sys2Proof.Machine
end

