-- ==== Sys2Proof/Machine/Clock.lean ====
section
/-! DEFINITION. Machine/Clock.lean: the block at one rising edge of `clk`: reset (spec R190), acceptance (R196),
a busy cycle and completion (R197). And the transaction of spec R16: the edges from one on until the block is
idle again. -/
namespace Sys2Proof.Machine

/-- The architectural effect of a command word, as one transition (spec R16): the decoded instruction's, or
IllegalCommand for a word that the decoder rejects (spec R161). -/
def runWord (w : CmdWord) (s : State) : Host.Outcome State Fault Refusal :=
  match decode w with
  | .instr i => exec i s
  | .illegal _ => raiseIllegalWord s

/-- A busy cycle of the command `w` with `left` edges to go: `rsp_valid` is 0, every other register holds
(spec R197, R200), and the sequencer's working values are free (spec I13). -/
def State.holdBusy (s : State) (w : CmdWord) (left : Nat) : State :=
  { s with rspValid := false, inFlight := some ⟨w, left, Config.freeSequencerWork s.cycle⟩ }

/-- An edge that accepts nothing while idle: every register holds, and the `rsp_valid` pulse ends (spec R174,
R197). -/
def State.holdIdle (s : State) : State := { s with rspValid := false }

/-- The edge that accepts `w` (spec R196): with `LAT = 1` the command completes at this edge, else the block is
busy for `LAT - 1` more edges (spec R197). -/
def acceptWord (w : CmdWord) (s : State) : Host.Outcome State Fault Refusal :=
  match latencyOf s.params w with
  | left + 2 => .next (s.holdBusy w (left + 1))
  | _ => runWord w s

/-- An edge of a command in flight without reset: its effect appears as a whole at the last of its edges
(spec R197, R198). -/
def continueWord (q : Sequencer) (s : State) : Host.Outcome State Fault Refusal :=
  match q.cyclesLeft with
  | left + 2 => .next (s.holdBusy q.command (left + 1))
  | _ => runWord q.command s

/-- One rising edge with the given inputs. Reset wins over everything (spec R190); a busy block ignores
`cmd_valid` and `cmd_word`, and so does an idle one without `cmd_valid` (spec R196); a word that is not stable
at the accepting edge is refused (spec R204). -/
def clockEdge (e : EdgeInput) (s : State) : Host.Outcome State Fault Refusal :=
  if e.rst then .next s.applyReset
  else
    match s.inFlight with
    | some q => continueWord q s
    | none =>
      if e.cmdValid then
        match e.cmdWord with
        | .stable w => acceptWord w s
        | .unstable => .refused .unstableCommandWord
      else .next s.holdIdle

/-- What the host drives when it presents nothing. -/
def EdgeInput.quiet : EdgeInput := { rst := false, cmdValid := false, cmdWord := .stable 0x000000#24 }

/-- What the host drives to present the command word `w` (spec R175). -/
def EdgeInput.present (w : CmdWord) : EdgeInput := { rst := false, cmdValid := true, cmdWord := .stable w }

/-- The inputs at the coming edge; past the end of the host's list, none (log 6). -/
def State.nextInput (s : State) : EdgeInput := s.inputs.headD .quiet

/-- The state with its coming input taken and the cycle's number counted up (spec R195). -/
def State.takeInput (s : State) : State := { s with inputs := s.inputs.tail, cycle := s.cycle + 1 }

/-- One rising edge, its inputs the host's next ones. -/
def tick (s : State) : Host.Outcome State Fault Refusal := clockEdge s.nextInput s.takeInput

/-- How many more edges the command in flight takes; 0 when idle. -/
def State.edgesToGo (s : State) : Nat :=
  match s.inFlight with
  | none => 0
  | some q => q.cyclesLeft

/-- Edges until the block is idle, at most `fuel` of them. -/
def settle : (fuel : Nat) → State → Host.Outcome State Fault Refusal
  | 0, s => .next s
  | fuel + 1, s =>
    if s.busy then
      match tick s with
      | .next t => settle fuel t
      | .fault f => .fault f
      | .refused r => .refused r
    else .next s

/-- ONE TRANSACTION (spec R16, R45): the next rising edge, and if it leaves a command in flight, the edges that
follow until the block is idle: by completion, or by a reset among them (log 7). -/
def transaction (s : State) : Host.Outcome State Fault Refusal :=
  match tick s with
  | .next t => settle t.edgesToGo t
  | .fault f => .fault f
  | .refused r => .refused r

/-- The block idle with the host presenting `w` at the coming edge and nothing after it (log 8). -/
def State.presentOnly (s : State) (w : CmdWord) : State :=
  { s with inFlight := none, inputs := [.present w] }

end Sys2Proof.Machine
end

