-- ==== Sys2Proof/Machine/Step.lean ====
section
/-! DEFINITION. Machine/Step.lean: one step of the machine, and where it takes its next instruction from. -/
namespace Sys2Proof.Machine

/-- One step is one transaction (spec R16): what the host drives at the coming edge, and a command it presents
there from acceptance to completion (log 7). -/
def step (s : State) : Host.Outcome State Fault Refusal := transaction s

/-- The state whose next step runs the command word of the opcode table's numbering (log 8). -/
def State.withFetchWord (s : State) (nbits w : Nat) : State := s.presentOnly (tableWord nbits w)

end Sys2Proof.Machine
end

