-- ==== Sys2Proof/Machine/Assembler.lean ====
section
/-! DEFINITION. Machine/Assembler.lean: the command assembly language (spec R71, R72) with its pseudo-instructions
(spec R73). A text is a list of characters, so that the kernel can evaluate it. Log 11 names what the spec
leaves open. -/
namespace Sys2Proof.Machine

/-- What may stand first on a line: the eight mnemonics and `.word` (spec R71), and the pseudo-instructions
(spec R73). -/
inductive AsmOp where
  | init
  | setSeed
  | fixSeed
  | advanceBit
  | advanceBits
  | getBit
  | getBits
  | getByte
  | word
  | getNibble
  | seedRuntime
  | seedFixed
  | prime
  deriving DecidableEq, Repr

/-- Why the assembler refuses a line. -/
inductive AsmError where
  /-- the line begins with no name of the language -/
  | unknownName
  /-- the wrong number of operands -/
  | operandCount
  /-- an operand that is no decimal or `0x` number -/
  | notANumber
  /-- an operand outside its range: refused, not truncated (spec R71) -/
  | operandOutOfRange
  deriving DecidableEq, Repr

/-- The outcome of assembling: the command words, or a refusal. -/
inductive Assembled where
  | words (ws : List CmdWord)
  | refused (e : AsmError)
  deriving DecidableEq, Repr

/-- The spelling of each name (spec R71, R73): lower case. -/
def AsmOp.spelling : AsmOp → List Char
  | .init => ['i', 'n', 'i', 't']
  | .setSeed => ['s', 'e', 't', '_', 's', 'e', 'e', 'd']
  | .fixSeed => ['f', 'i', 'x', '_', 's', 'e', 'e', 'd']
  | .advanceBit => ['a', 'd', 'v', 'a', 'n', 'c', 'e', '_', 'b', 'i', 't']
  | .advanceBits => ['a', 'd', 'v', 'a', 'n', 'c', 'e', '_', 'b', 'i', 't', 's']
  | .getBit => ['g', 'e', 't', '_', 'b', 'i', 't']
  | .getBits => ['g', 'e', 't', '_', 'b', 'i', 't', 's']
  | .getByte => ['g', 'e', 't', '_', 'b', 'y', 't', 'e']
  | .word => ['.', 'w', 'o', 'r', 'd']
  | .getNibble => ['g', 'e', 't', '_', 'n', 'i', 'b', 'b', 'l', 'e']
  | .seedRuntime => ['s', 'e', 'e', 'd', '_', 'r', 'u', 'n', 't', 'i', 'm', 'e']
  | .seedFixed => ['s', 'e', 'e', 'd', '_', 'f', 'i', 'x', 'e', 'd']
  | .prime => ['p', 'r', 'i', 'm', 'e']

/-- Every name of the language. -/
def AsmOp.all : List AsmOp :=
  [.init, .setSeed, .fixSeed, .advanceBit, .advanceBits, .getBit, .getBits, .getByte, .word, .getNibble,
    .seedRuntime, .seedFixed, .prime]

/-- The name that a word of text spells. -/
def AsmOp.ofSpelling (name : List Char) : Option AsmOp := AsmOp.all.find? (fun op => op.spelling == name)

/-- An operand byte: 0 to 255, refused outside that range (spec R71). -/
def byteOperand (n : Nat) : Option Byte := if n ≤ 255 then some (BitVec.ofNat 8 n) else none

/-- One command with two operand bytes. -/
def assembleTwo (mk : Byte → Byte → List CmdWord) (m n : Nat) : Assembled :=
  match byteOperand m, byteOperand n with
  | some a, some b => .words (mk a b)
  | _, _ => .refused .operandOutOfRange

/-- One command with one operand byte. -/
def assembleOne (mk : Byte → List CmdWord) (n : Nat) : Assembled :=
  match byteOperand n with
  | some b => .words (mk b)
  | none => .refused .operandOutOfRange

/-- `.word v`: the raw command word, `v` in 0 to 0xFFFFFF (spec R71). -/
def assembleRaw (v : Nat) : Assembled :=
  if v ≤ 0xFFFFFF then .words [BitVec.ofNat 24 v] else .refused .operandOutOfRange

/-- The words of one command (spec R71; the encoding is spec R64) or pseudo-instruction (spec R73). -/
def assembleStatement (op : AsmOp) (operands : List Nat) : Assembled :=
  match op, operands with
  | .init, [] => .words [encode .init]
  | .setSeed, [hi, lo] => assembleTwo (fun a b => [encode (.setSeed a b)]) hi lo
  | .fixSeed, [] => .words [encode .fixSeed]
  | .advanceBit, [] => .words [encode .advanceBit]
  | .advanceBits, [n] => assembleOne (fun b => [encode (.advanceBits b)]) n
  | .getBit, [] => .words [encode .getBit]
  | .getBits, [n] => assembleOne (fun b => [encode (.getBits b)]) n
  | .getByte, [] => .words [encode .getByte]
  | .word, [v] => assembleRaw v
  | .getNibble, [] => .words [encode (.getBits 4#8)]
  | .seedRuntime, [hi, lo] => assembleTwo (fun a b => [encode (.setSeed a b), encode .fixSeed]) hi lo
  | .seedFixed, [hi, lo] => assembleTwo (fun a b => [encode (.setSeed a b)]) hi lo
  | .prime, [n] => assembleOne (fun b => [encode (.advanceBits b)]) n
  | _, _ => .refused .operandCount

/-- White space inside a line. -/
def isBlank (c : Char) : Bool := c == ' ' || c == '\t' || c == '\r'

/-- The text without blanks at its two ends. -/
def trimBlanks (cs : List Char) : List Char :=
  ((cs.dropWhile isBlank).reverse.dropWhile isBlank).reverse

/-- The parts of a text between the occurrences of `sep`: at least one part. -/
def splitAtChar (sep : Char) : List Char → List (List Char)
  | [] => [[]]
  | c :: cs =>
    if c == sep then [] :: splitAtChar sep cs
    else
      match splitAtChar sep cs with
      | part :: parts => (c :: part) :: parts
      | [] => [[c]]

/-- The value of a digit in base 10 or 16. -/
def digitValue (base : Nat) (c : Char) : Option Nat :=
  let n := c.toNat
  let v := if 48 ≤ n ∧ n ≤ 57 then n - 48 else if 97 ≤ n ∧ n ≤ 102 then n - 87
    else if 65 ≤ n ∧ n ≤ 70 then n - 55 else 16
  if v < base then some v else none

/-- The value of a text of digits, continuing from `acc`. -/
def digitsValue (base : Nat) : (acc : Nat) → List Char → Option Nat
  | acc, [] => some acc
  | acc, c :: cs =>
    match digitValue base c with
    | some v => digitsValue base (acc * base + v) cs
    | none => none

/-- A number: `0x` and hexadecimal digits, or decimal digits, at least one (spec R71). -/
def parseNumber (cs : List Char) : Option Nat :=
  match cs with
  | '0' :: 'x' :: d :: ds => digitsValue 16 0 (d :: ds)
  | d :: ds => digitsValue 10 0 (d :: ds)
  | [] => none

/-- The operands of a line, separated by commas; none where one is no number. -/
def parseOperands (cs : List Char) : Option (List Nat) :=
  match trimBlanks cs with
  | [] => some []
  | text => (splitAtChar ',' text).mapM (fun part => parseNumber (trimBlanks part))

/-- One line (spec R71): at most one command, and `;` begins a comment. An empty line gives no word. -/
def assembleLine (line : List Char) : Assembled :=
  match trimBlanks (line.takeWhile (fun c => c != ';')) with
  | [] => .words []
  | text =>
    match AsmOp.ofSpelling (text.takeWhile (fun c => !isBlank c)) with
    | none => .refused .unknownName
    | some op =>
      match parseOperands (text.dropWhile (fun c => !isBlank c)) with
      | none => .refused .notANumber
      | some operands => assembleStatement op operands

/-- The lines of a program, in order. DESIGN CHOICE (log 11): where a line is refused, the whole text gives no word
and the answer is the first refused line's error; spec R71 says only that the operand is refused. -/
def assembleLines : List (List Char) → Assembled
  | [] => .words []
  | line :: rest =>
    match assembleLine line with
    | .refused e => .refused e
    | .words ws =>
      match assembleLines rest with
      | .refused e => .refused e
      | .words ws' => .words (ws ++ ws')

/-- A program text: one command per line (spec R71). -/
def assemble (text : List Char) : Assembled := assembleLines (splitAtChar '\n' text)

end Sys2Proof.Machine
end

