-- ==== Sys2Proof/Machine/Ports.lean ====
section
/-! DEFINITION. Machine/Ports.lean: the output ports (spec R35, R36), and a response as the host takes it (spec
R175, R205). Reading a port changes nothing (spec R46): each is a function of the state. -/
namespace Sys2Proof.Machine

/-- The register behind an observation port (spec R36). -/
def State.observed (s : State) : ObsPort → Byte
  | .hi => s.hi
  | .lo => s.lo
  | .last => s.lastValue

/-- An observation port: its register while idle, any value while busy (spec R36, R203, I7; log 3). -/
def State.obsPort (s : State) (p : ObsPort) : Byte :=
  if s.cmdReady then s.observed p else Config.freeObservation p s.cycle

/-- What the block's output ports show in one cycle (spec R35). -/
structure PortView where
  cmdReady : Bool
  rspValid : Bool
  rspStatus : BitVec 2
  rspData : Byte
  obsHi : Byte
  obsLo : Byte
  obsLast : Byte
  deriving DecidableEq, Repr

/-- The output ports (spec R35): every one driven from a register (spec R195). -/
def State.ports (s : State) : PortView :=
  { cmdReady := s.cmdReady
    rspValid := s.rspValid
    rspStatus := s.rspStatus
    rspData := s.rspData
    obsHi := s.obsPort .hi
    obsLo := s.obsPort .lo
    obsLast := s.obsPort .last }

/-- Reading the status port: the status of its code, and the fault of spec I10 at code 3. -/
def State.readStatus (s : State) : Host.Outcome Status Fault Refusal :=
  match Status.ofCode s.rspStatus with
  | some st => .next st
  | none => .fault .reservedStatus

/-- A response: what `rsp_status` and `rsp_data` show in the cycle of a completion (spec R175). -/
structure Response where
  status : BitVec 2
  data : Byte
  deriving DecidableEq, Repr

/-- The response of this cycle, where `rsp_valid` is 1 (spec R197, R205). -/
def State.response (s : State) : Option Response :=
  if s.rspValid then some ⟨s.rspStatus, s.rspData⟩ else none

end Sys2Proof.Machine
end

