-- ==== Sys2Proof/Machine/Run.lean ====
section
/-! DEFINITION. Machine/Run.lean: a host's command list (spec R27, R175), a run of it, and what a run shows
(spec R176). -/
namespace Sys2Proof.Machine

/-- Command words in acceptance order, each one atomic transition (spec R45, R49). -/
def runWords : List CmdWord → State → Host.Outcome State Fault Refusal
  | [], s => .next s
  | w :: ws, s =>
    match runWord w s with
    | .next t => runWords ws t
    | .fault f => .fault f
    | .refused r => .refused r

/-- The edges of a host that presents each word as soon as the block is ready and waits for its completion
(spec R175): the word at one edge, then nothing for the rest of its `LAT` cycles (spec R197). -/
def hostSchedule (p : Params) : List CmdWord → List EdgeInput
  | [] => []
  | w :: ws => .present w :: (List.replicate (latencyOf p w - 1) .quiet ++ hostSchedule p ws)

/-- `n` rising edges. -/
def ticks : Nat → State → Host.Outcome State Fault Refusal
  | 0, s => .next s
  | n + 1, s =>
    match tick s with
    | .next t => ticks n t
    | .fault f => .fault f
    | .refused r => .refused r

/-- `n` steps. -/
def steps : Nat → State → Host.Outcome State Fault Refusal
  | 0, s => .next s
  | n + 1, s =>
    match step s with
    | .next t => steps n t
    | .fault f => .fault f
    | .refused r => .refused r

/-- The responses of at most `n` steps, first one first, and the state they end in. A step holds at most one
completion, at its last edge. -/
def responsesOf : Nat → State → Host.Outcome (List Response × State) Fault Refusal
  | 0, s => .next ([], s)
  | n + 1, s =>
    match step s with
    | .next t =>
      match responsesOf n t with
      | .next (rs, u) => .next (t.response.toList ++ rs, u)
      | .fault f => .fault f
      | .refused r => .refused r
    | .fault f => .fault f
    | .refused r => .refused r

/-- A run has ended: the block is idle, no command is presented, and the host's command list is exhausted (spec
R176). DESIGN CHOICE (log 15): a reset that the host still has to drive keeps the run open, so that the state it
leaves is what is observed; R176 does not name resets. -/
def State.runEnded (s : State) : Bool :=
  s.cmdReady && s.inputs.all (fun e => !e.rst && !e.cmdValid)

/-- The observation of a run that has ended (spec R176): the architectural state and the responses. -/
structure Observation where
  hi : Byte
  lo : Byte
  lastValue : Byte
  rspData : Byte
  rspStatus : Status
  responses : List Response
  deriving DecidableEq, Repr

/-- What a run of `n` steps shows, where it has ended by then (spec R176); none where it has not. -/
def observeRun (n : Nat) (s : State) : Host.Outcome (Option Observation) Fault Refusal :=
  match responsesOf n s with
  | .next (rs, t) =>
    if t.runEnded then
      match t.readStatus with
      | .next st => .next (some ⟨t.obsPort .hi, t.obsPort .lo, t.obsPort .last, t.rspData, st, rs⟩)
      | .fault f => .fault f
      | .refused r => .refused r
    else .next none
  | .fault f => .fault f
  | .refused r => .refused r

end Sys2Proof.Machine
end

