-- ==== Sys2Proof/Machine/Sequence.lean ====
section
/-! DEFINITION. Machine/Sequence.lean: the vocabulary of the laws of the advance (spec R124 to R129): the two
bytes after `k` advances, the output sequence, the inverse of the map on `lo`, and `bitlength`. No command's
meaning uses these; they are proved to agree with `State.advanceTimes` in Laws/Ops.lean. -/
namespace Sys2Proof.Machine

/-- `L^k(x)`: `lo` after `k` advances from `lo = x` (spec R127). -/
def loAfter : Nat → Byte → Byte
  | 0, x => x
  | k + 1, x => loAfter k (advanceLo x)

/-- `hi` after `k` advances from `hi = h`, `lo = x` (spec R126). -/
def hiAfter : Nat → Byte → Byte → Byte
  | 0, h, _ => h
  | k + 1, h, x => hiAfter k (advanceHi h x) (advanceLo x)

/-- `s_t`, the output bit of the `(t+1)`-th advance from `lo = x` (spec R125). -/
def outputSeq (x : Byte) (t : Nat) : Bit := outputBit (loAfter t x)

/-- `Linv`, the inverse of the map on `lo` (spec R127). -/
def advanceLoInverse (y : Byte) : Byte :=
  ((y <<< 1) &&& 0xFE#8) ||| zext8 (bitAt y 7 ^^^ bitAt y 1 ^^^ bitAt y 2 ^^^ bitAt y 4)

/-- `bitlength(h)`: the index of the highest set bit plus 1, and 0 for zero (spec R128 (b)). -/
def bitLength (h : Byte) : Nat :=
  if h.getLsbD 7 then 8 else if h.getLsbD 6 then 7 else if h.getLsbD 5 then 6 else if h.getLsbD 4 then 5
  else if h.getLsbD 3 then 4 else if h.getLsbD 2 then 3 else if h.getLsbD 1 then 2 else if h.getLsbD 0 then 1
  else 0

/-- A state is cyclic when some positive number of advances returns to it (spec R129). -/
def Cyclic (h x : Byte) : Prop := ∃ k, 0 < k ∧ hiAfter k h x = h ∧ loAfter k x = x

end Sys2Proof.Machine
end

