-- ==== Sys2Proof/WellFormed.lean ====
section
/-! DEFINITION. WellFormed.lean: which instructions are commands of the command set (spec R2, R66), and which
command words are well-formed (spec R67, R68). -/
namespace Sys2Proof

/-- An instruction is well-formed when it is one of the eight commands of spec R2, with operands of any value
(a count out of range is checked at execution: spec R68). The reserved class is no command (spec R66). -/
def Instr.wellFormed : Instr → Bool
  | .init => true
  | .setSeed _ _ => true
  | .fixSeed => true
  | .advanceBit => true
  | .advanceBits _ => true
  | .getBit => true
  | .getBits _ => true
  | .getByte => true
  | .reserved _ => false

/-- The operand formats of spec R62. -/
inductive Format where
  | n
  | s
  | c
  deriving DecidableEq, Repr

/-- The format of each opcode (spec R64); none for the reserved ones. -/
def opFormat (op : BitVec 4) : Option Format :=
  match op.toNat with
  | 0 => some .n
  | 1 => some .s
  | 2 => some .n
  | 3 => some .n
  | 4 => some .c
  | 5 => some .n
  | 6 => some .c
  | 7 => some .n
  | _ => none

/-- Are the fields that the format does not use zero (spec R63)? -/
def Format.unusedZero (f : Format) (a b : Byte) : Bool :=
  match f with
  | .n => a == 0#8 && b == 0#8
  | .s => true
  | .c => a == 0#8

/-- A word is a well-formed command: the opcode is not reserved, RSV is zero, and every operand field the
format does not use is zero (spec R66, R67). Written from the formats, not from `decode`. -/
def wellFormedWord (w : CmdWord) : Bool :=
  match opFormat (opField w) with
  | none => false
  | some f => rsvField w == 0#4 && f.unusedZero (aField w) (bField w)

end Sys2Proof
end

