-- ==== Sys2Proof/Safety.lean ====
section
/-! DEFINITION. Safety.lean: the invariant of the block, what a live generator is (spec R201), and the terms the
statements are written in. -/
namespace Sys2Proof.Machine

/-- `rsp_status` is not the reserved code 3 (spec R164, I10). -/
def State.statusLegal (s : State) : Bool := s.rspStatus != 3#2

/-- A command in flight has at least one edge to go, and while there is one `rsp_valid` is 0 (spec R197). -/
def State.sequencerLegal (s : State) : Bool :=
  match s.inFlight with
  | none => true
  | some q => decide (1 ≤ q.cyclesLeft) && !s.rspValid

/-- The invariant: a legal status, a legal sequencer, and parameters that meet their constraints (spec R8, R9,
R10). -/
def State.Inv (s : State) : Prop :=
  s.statusLegal = true ∧ s.sequencerLegal = true ∧ s.params.wellFormed = true

/-- The generator is live: `lo` is not zero. From any other state every output bit is 0 (spec R128, R201). -/
def State.live (s : State) : Bool := s.lo != 0x00#8

/-- The host keeps `cmd_word` stable (spec R204). -/
def EdgeInput.stableWord (e : EdgeInput) : Bool :=
  match e.cmdWord with
  | .stable _ => true
  | .unstable => false

/-- The word does not seed a low byte of zero (spec R201). -/
def CmdPins.keepsLive (pins : CmdPins) : Bool :=
  match pins with
  | .unstable => true
  | .stable w =>
    match decode w with
    | .instr (.setSeed _ lo) => lo != 0x00#8
    | _ => true

/-- The host does not present a seed whose low byte is zero at this edge (spec R201). An edge with `rst = 1` or
`cmd_valid = 0` presents nothing, whatever stands on `cmd_word` (spec R52, R190). -/
def EdgeInput.keepsLive (e : EdgeInput) : Bool := e.rst || !e.cmdValid || e.cmdWord.keepsLive

/-- `hi`, `lo` and `last_value` are as before. -/
def SameGenerator (s t : State) : Prop := t.hi = s.hi ∧ t.lo = s.lo ∧ t.lastValue = s.lastValue

/-- What no command writes: the parameters, the cycle's number and the host's inputs are as before. -/
def SameSurroundings (s t : State) : Prop := t.params = s.params ∧ t.cycle = s.cycle ∧ t.inputs = s.inputs

/-- The command that took `s` to `t` completed with this status and data: the response registers hold them,
`rsp_valid` is 1, the block is idle, and what no command writes is as before (spec R15, R160, R197). -/
def CompletedWith (s t : State) (st : Status) (data : Byte) : Prop :=
  t.rspStatus = st.code ∧ t.rspData = data ∧ t.rspValid = true ∧ t.inFlight = none ∧ SameSurroundings s t

/-- The word ends in an error: the error's status and data 0x00, and `hi`, `lo` and `last_value` as before
(spec R160). -/
def EndsInError (w : CmdWord) (s : State) (e : CommandError) : Prop :=
  ∃ t, runWord w s = .next t ∧ SameGenerator s t ∧ CompletedWith s t e.status 0x00#8

/-- The byte a word delivers to `last_value`, where it is an output command that succeeds (spec R24). -/
def delivery (w : CmdWord) (t : State) : Option Byte :=
  match decode w with
  | .instr .getBit => some t.rspData
  | .instr (.getBits n) => if countInRange (countOperand n) then some t.rspData else none
  | .instr .getByte => some t.rspData
  | _ => none

/-- The most recent byte delivered by a list of words, `held` before the first (spec R146). -/
def lastDelivery : (held : Byte) → List CmdWord → State → Byte
  | held, [], _ => held
  | held, w :: ws, s =>
    match runWord w s with
    | .next t => lastDelivery ((delivery w t).getD held) ws t
    | _ => held

/-- The two spellings of a number in the command assembly language: decimal, and hexadecimal with `0x` (spec R71).
Written from the library's own digits, not from `parseNumber`. -/
def numberTexts (n : Nat) : List (List Char) := [Nat.toDigits 10 n, '0' :: 'x' :: Nat.toDigits 16 n]

end Sys2Proof.Machine
end

