-- ==== Sys2Proof/Certificates/Slice0/Obligations.lean ====
section
/-! DEFINITION. Certificates/Slice0/Obligations.lean: the statements for the provers. The terms
`CompletedWith`, `EndsInError`, `SameGenerator` and `SameSurroundings` are defined in Safety.lean; together
they speak of every field of `State`. -/

open Sys2Proof Sys2Proof.Machine

/-! ## Encoding (spec 30_encoding.md) -/

/-- Words written out from the hex column of spec R64 decode to their commands. -/
def Obligations.WordsOfTheOpcodeMapDecode : Prop :=
  decode 0x000000#24 = .instr .init ∧
  decode 0x10A53C#24 = .instr (.setSeed 0xA5#8 0x3C#8) ∧
  decode 0x200000#24 = .instr .fixSeed ∧
  decode 0x300000#24 = .instr .advanceBit ∧
  decode 0x4000C8#24 = .instr (.advanceBits 0xC8#8) ∧
  decode 0x500000#24 = .instr .getBit ∧
  decode 0x600003#24 = .instr (.getBits 0x03#8) ∧
  decode 0x700000#24 = .instr .getByte ∧
  decode 0x812345#24 = .instr (.reserved 0x012345#23)

/-- DECODE AND ENCODE AGREE (spec R63, R64, R65): every instruction of every row, with every operand at every
value, decodes from its encoding. -/
def Obligations.EncodedInstructionDecodesToItself : Prop :=
  ∀ i : Instr, decode (encode i) = .instr i

/-- Every word that decodes to an instruction is that instruction's one encoding: no field is ignored (spec R67,
R70). -/
def Obligations.EveryWordHasAtMostOneMeaning : Prop :=
  ∀ (w : CmdWord) (i : Instr), decode w = .instr i → encode i = w

/-- Spec R66: opcodes 0x8 to 0xF are the words with bit 23 set; each raises IllegalCommand and writes neither
`hi`, `lo` nor `last_value`. The meaning of the reserved class completes so from every state. -/
def Obligations.ReservedOpcodesRaiseIllegalCommand : Prop :=
  (∀ w : CmdWord, w.getLsbD 23 = true ↔ 8 ≤ (opField w).toNat) ∧
  (∀ (w : CmdWord) (s : State), w.getLsbD 23 = true →
    (∃ any, decode w = .instr (.reserved any)) ∧ EndsInError w s .illegalCommand) ∧
  ∀ (any : BitVec 23) (s : State), ∃ t, exec (.reserved any) s = .next t ∧ SameGenerator s t ∧
    CompletedWith s t .illegalCommand 0x00#8

/-- Spec R67: a word with a legal opcode is illegal exactly when RSV is nonzero, or a format-N word has a nonzero
A or B, or a format-C word has a nonzero A; and then it raises IllegalCommand. -/
def Obligations.FieldChecksDecideWhichWordsAreIllegal : Prop :=
  ∀ (w : CmdWord), (opField w).toNat < 8 →
    let isN := opField w = 0#4 ∨ opField w = 2#4 ∨ opField w = 3#4 ∨ opField w = 5#4 ∨ opField w = 7#4
    let isC := opField w = 4#4 ∨ opField w = 6#4
    let bad := rsvField w ≠ 0#4 ∨ (isN ∧ (aField w ≠ 0#8 ∨ bField w ≠ 0#8)) ∨ (isC ∧ aField w ≠ 0#8)
    ((∃ e, decode w = .illegal e) ↔ bad) ∧
    (wellFormedWord w = false ↔ bad) ∧
    (bad → ∀ s : State, EndsInError w s .illegalCommand)

/-- Spec R68: format-C words are well-formed for every count. `get_bits` raises InvalidArgument for 0 and for 9 to
255; `advance_bits` completes with OK for every count, and for 0 it leaves the register as it was. -/
def Obligations.CountWordsAreWellFormedForEveryCount : Prop :=
  ∀ (n : Byte),
    decode (0x600000#24 ||| n.setWidth 24) = .instr (.getBits n) ∧
    decode (0x400000#24 ||| n.setWidth 24) = .instr (.advanceBits n) ∧
    (∀ s : State, n = 0#8 ∨ 9 ≤ n.toNat →
      EndsInError (0x600000#24 ||| n.setWidth 24) s .invalidArgument) ∧
    (∀ s : State, ∃ t, runWord (0x400000#24 ||| n.setWidth 24) s = .next t ∧ CompletedWith s t .ok 0x00#8 ∧
      (n = 0#8 → SameGenerator s t))

/-- Spec R69, the classes of words: the well-formed words are the five format-N words, the 65,536 of `set_seed`, the
256 of `advance_bits` and the 256 of `get_bits`; those of `get_bits` whose count is not in 1 to 8 report
INVALID_ARGUMENT, every other well-formed word reports OK, and every word that is not well-formed reports
ILLEGAL_COMMAND. -/
def Obligations.WordsFallIntoTheListedClasses : Prop :=
  ∀ w : CmdWord,
    (wellFormedWord w = true ↔
      w ∈ [0x000000#24, 0x200000#24, 0x300000#24, 0x500000#24, 0x700000#24] ∨
      (∃ x : Seed, w = 0x10#8 ++ x) ∨ (∃ n : Byte, w = 0x4000#16 ++ n) ∨ (∃ n : Byte, w = 0x6000#16 ++ n)) ∧
    ∀ s : State, ∃ t, runWord w s = .next t ∧
      (t.rspStatus = 2#2 ↔ wellFormedWord w = false) ∧
      (t.rspStatus = 1#2 ↔ ∃ n : Byte, w = 0x6000#16 ++ n ∧ ¬(1 ≤ n.toNat ∧ n.toNat ≤ 8)) ∧
      (t.rspStatus = 0#2 ↔ wellFormedWord w = true ∧
        ¬∃ n : Byte, w = 0x6000#16 ++ n ∧ ¬(1 ≤ n.toNat ∧ n.toNat ≤ 8))

/-! ## Seed commands (spec 40_seed.md) -/

/-- Spec R100: `init` loads `DEFAULT_SEED` from every state, keeps `last_value` and responds OK with 0x00; with a
conforming parameter the result is no zero trap; every other word of its opcode is illegal. -/
def Obligations.InitLoadsTheDefaultSeed : Prop :=
  decode 0x000000#24 = .instr .init ∧
  (∀ (w : CmdWord) (s : State), opField w = 0#4 → w ≠ 0x000000#24 → EndsInError w s .illegalCommand) ∧
  ∀ s : State, ∃ t, exec .init s = .next t ∧
    t.hi = s.params.defaultSeed.extractLsb' 8 8 ∧ t.lo = s.params.defaultSeed.extractLsb' 0 8 ∧
    t.lastValue = s.lastValue ∧ CompletedWith s t .ok 0x00#8 ∧
    (s.params.wellFormed = true → t.lo ≠ 0x00#8)

/-- Spec R101: reset and `init` load the same generator state; reset also sets the other registers and discards a
command in flight, while `init` keeps `last_value` and responds; `init` right after reset leaves `hi` and `lo`
unchanged. -/
def Obligations.InitAndResetLoadTheSameSeed : Prop :=
  ∀ (s : State) (e : EdgeInput), e.rst = true → ∃ r t u,
    clockEdge e s = .next r ∧ exec .init s = .next t ∧ exec .init r = .next u ∧
    r.hi ++ r.lo = s.params.defaultSeed ∧ t.hi ++ t.lo = s.params.defaultSeed ∧
    r.lastValue = 0x00#8 ∧ r.rspData = 0x00#8 ∧ r.rspStatus = 0#2 ∧ r.rspValid = false ∧ r.inFlight = none ∧
    t.lastValue = s.lastValue ∧ CompletedWith s t .ok 0x00#8 ∧
    u.hi = r.hi ∧ u.lo = r.lo

/-- Spec R102: `set_seed` writes A to `hi` and B to `lo` for every A and B, keeps `last_value` and responds OK with
0x00; a nonzero RSV is illegal. -/
def Obligations.SetSeedWritesBothBytes : Prop :=
  (∀ hi lo : Byte, decode (0x100000#24 ||| (hi ++ lo).setWidth 24) = .instr (.setSeed hi lo)) ∧
  (∀ (w : CmdWord) (s : State), opField w = 1#4 → rsvField w ≠ 0#4 → EndsInError w s .illegalCommand) ∧
  ∀ (hi lo : Byte) (s : State), ∃ t, exec (.setSeed hi lo) s = .next t ∧
    t.hi = hi ∧ t.lo = lo ∧ t.lastValue = s.lastValue ∧ CompletedWith s t .ok 0x00#8

/-- Spec R103: `set_seed` checks nothing. A seed with low byte 0x00 is written as given; `fix_seed` before the first
advance leaves it unless it is 0x0000; and within 8 advances the register is `00:00`. -/
def Obligations.SeedWithZeroLowByteDrains : Prop :=
  ∀ (h : Byte) (s : State), ∃ t u v,
    exec (.setSeed h 0x00#8) s = .next t ∧ t.hi = h ∧ t.lo = 0x00#8 ∧
    exec .fixSeed t = .next u ∧ (h ≠ 0x00#8 → SameGenerator t u) ∧
    exec (.advanceBits 8#8) t = .next v ∧ v.hi = 0x00#8 ∧ v.lo = 0x00#8

/-- Spec R104: `fix_seed` writes `FALLBACK_SEED` when both bytes are zero and is a no-op on any other state, keeps
`last_value` and responds OK with 0x00 in both cases; every other word of its opcode is illegal. -/
def Obligations.FixSeedReplacesOnlyTheAllZeroState : Prop :=
  decode 0x200000#24 = .instr .fixSeed ∧
  (∀ (w : CmdWord) (s : State), opField w = 2#4 → w ≠ 0x200000#24 → EndsInError w s .illegalCommand) ∧
  ∀ s : State, ∃ t, exec .fixSeed s = .next t ∧ t.lastValue = s.lastValue ∧ CompletedWith s t .ok 0x00#8 ∧
    (s.hi = 0x00#8 ∧ s.lo = 0x00#8 → t.hi = s.params.fallbackSeed.extractLsb' 8 8 ∧
      t.lo = s.params.fallbackSeed.extractLsb' 0 8) ∧
    (¬(s.hi = 0x00#8 ∧ s.lo = 0x00#8) → t.hi = s.hi ∧ t.lo = s.lo)

/-- Spec R105: with a conforming parameter the register is not zero after `fix_seed`, and two `fix_seed` commands in
a row leave the same state as one. -/
def Obligations.FixSeedEstablishesANonzeroRegister : Prop :=
  ∀ s : State, s.params.wellFormed = true → ∃ t u, exec .fixSeed s = .next t ∧ exec .fixSeed t = .next u ∧
    t.hi ++ t.lo ≠ 0x0000#16 ∧ u = t ∧
    (s.hi ++ s.lo ≠ 0x0000#16 → SameGenerator s t) ∧
    (s.hi ++ s.lo = 0x0000#16 → t.hi ++ t.lo = s.params.fallbackSeed)

/-- Spec R46, idempotence: a seed command done twice in a row leaves the state it leaves once. An advance done from
`lo ≠ 0x00` changes the register, for every count up to 254 (255 advances return a cyclic state to itself: spec
R123), and the zero state stays as it is. -/
def Obligations.SeedCommandsAreIdempotentAndAdvancesAreNot : Prop :=
  (∀ (i : Instr) (s : State), (i = .init ∨ (∃ hi lo, i = .setSeed hi lo) ∨ i = .fixSeed) →
    ∃ t, exec i s = .next t ∧ exec i t = .next t) ∧
  (∀ (i : Instr) (s : State),
    (i = .advanceBit ∨ i = .getBit ∨ i = .getByte ∨
      (∃ n : Byte, i = .advanceBits n ∧ 1 ≤ n.toNat ∧ n.toNat ≤ 254) ∨
      (∃ n : Byte, i = .getBits n ∧ 1 ≤ n.toNat ∧ n.toNat ≤ 8)) →
    ∃ t, exec i s = .next t ∧ (s.lo ≠ 0x00#8 → t.lo ≠ s.lo) ∧
      (s.hi = 0x00#8 → s.lo = 0x00#8 → t.hi = 0x00#8 ∧ t.lo = 0x00#8))

/-! ## Advance commands and the laws of the advance (spec 41_advance.md) -/

/-- Spec R120 and R121, bit by bit: the bit entering `lo` is the XOR of the four taps, the bit entering `hi` and the
emitted bit are the old `lo[0]`, both bytes move right by one, the old `hi[0]` is discarded, and nothing else is
written. -/
def Obligations.StepShiftsBothBytesWithCrossFeed : Prop :=
  ∀ s : State,
    (s.advance).lo.getLsbD 7 = (s.lo.getLsbD 0 ^^ s.lo.getLsbD 2 ^^ s.lo.getLsbD 3 ^^ s.lo.getLsbD 5) ∧
    (∀ i, i < 7 → (s.advance).lo.getLsbD i = s.lo.getLsbD (i + 1)) ∧
    (s.advance).hi.getLsbD 7 = s.lo.getLsbD 0 ∧
    (∀ i, i < 7 → (s.advance).hi.getLsbD i = s.hi.getLsbD (i + 1)) ∧
    (outputBit s.lo).getLsbD 0 = s.lo.getLsbD 0 ∧
    s.advance = { s with hi := s.advance.hi, lo := s.advance.lo }

/-- Spec R122: `advance_bit` advances once and responds OK with the output bit, 0x00 or 0x01; `last_value` is kept;
from `lo = 0x00` the bit is 0 and `hi` halves; every other word of its opcode is illegal. -/
def Obligations.AdvanceBitReturnsTheOutputBit : Prop :=
  decode 0x300000#24 = .instr .advanceBit ∧
  (∀ (w : CmdWord) (s : State), opField w = 3#4 → w ≠ 0x300000#24 → EndsInError w s .illegalCommand) ∧
  ∀ s : State, ∃ t, exec .advanceBit s = .next t ∧
    t.hi = s.advance.hi ∧ t.lo = s.advance.lo ∧ t.lastValue = s.lastValue ∧
    CompletedWith s t .ok (if s.lo.getLsbD 0 then 0x01#8 else 0x00#8) ∧
    (s.lo = 0x00#8 → t.lo = 0x00#8 ∧ t.hi = s.hi >>> 1 ∧ t.rspData = 0x00#8)

/-- Spec R123: `advance_bits n` advances exactly `n` times for every `n` from 0 to 255 and responds OK with 0x00;
`last_value` is kept; counts add up; from a cyclic state 255 advances return to it; from `00:00` every `n` leaves
`00:00`; a nonzero A or RSV is illegal. -/
def Obligations.AdvanceBitsAdvancesExactlyNTimes : Prop :=
  (∀ n : Byte, decode (0x400000#24 ||| n.setWidth 24) = .instr (.advanceBits n)) ∧
  (∀ (w : CmdWord) (s : State), opField w = 4#4 → rsvField w ≠ 0#4 ∨ aField w ≠ 0#8 →
    EndsInError w s .illegalCommand) ∧
  (∀ (n : Byte) (s : State), ∃ t, exec (.advanceBits n) s = .next t ∧
    t.hi = hiAfter n.toNat s.hi s.lo ∧ t.lo = loAfter n.toNat s.lo ∧ t.lastValue = s.lastValue ∧
    CompletedWith s t .ok 0x00#8 ∧
    (n = 0#8 → SameGenerator s t) ∧
    (s.hi = 0x00#8 → s.lo = 0x00#8 → SameGenerator s t) ∧
    (n = 255#8 → Cyclic s.hi s.lo → SameGenerator s t)) ∧
  ∀ (a b : Byte) (s : State), ∃ t u, exec (.advanceBits a) s = .next t ∧ exec (.advanceBits b) t = .next u ∧
    u.hi = (s.advanceTimes (a.toNat + b.toNat)).hi ∧ u.lo = (s.advanceTimes (a.toNat + b.toNat)).lo

/-- Spec R124: `hi` never affects `lo` or an output bit, and `hi` is a record of the last 8 output bits. -/
def Obligations.HiNeverAffectsTheOutputAndRecordsIt : Prop :=
  (∀ (k : Nat) (s s' : State), s.lo = s'.lo →
    (s.advanceTimes k).lo = (s'.advanceTimes k).lo ∧
    outputBit (s.advanceTimes k).lo = outputBit (s'.advanceTimes k).lo) ∧
  ∀ (k : Nat) (s : State) (i : Nat), i < 8 →
    (s.advanceTimes (k + 8)).hi.getLsbD i = (outputSeq s.lo (k + i)).getLsbD 0

/-- The commands' side of spec R124: of two states that differ in `hi` alone, every command but `fix_seed` leaves
the same `lo`, `last_value` and response. -/
def Obligations.HiNeverReachesAResponse : Prop :=
  ∀ (i : Instr) (s : State) (h : Byte), i ≠ .fixSeed → ∃ t u,
    exec i s = .next t ∧ exec i { s with hi := h } = .next u ∧
    u.lo = t.lo ∧ u.lastValue = t.lastValue ∧ u.rspData = t.rspData ∧ u.rspStatus = t.rspStatus

/-- Spec R125: the first 8 output bits are the bits of the starting `lo`; from then on each is the XOR of four
earlier ones; and after `t` advances `lo` holds the next 8. -/
def Obligations.OutputSequenceObeysTheRecurrence : Prop :=
  ∀ (s : State) (t : Nat),
    (s.advanceTimes t).lo = loAfter t s.lo ∧ outputSeq s.lo t = outputBit (s.advanceTimes t).lo ∧
    (t ≤ 7 → (outputSeq s.lo t).getLsbD 0 = s.lo.getLsbD t) ∧
    outputSeq s.lo (t + 8) =
      outputSeq s.lo t ^^^ outputSeq s.lo (t + 2) ^^^ outputSeq s.lo (t + 3) ^^^ outputSeq s.lo (t + 5) ∧
    ∀ i, i < 8 → (s.advanceTimes t).lo.getLsbD i = (outputSeq s.lo (t + i)).getLsbD 0

/-- Spec R126: the register after `k` advances from `h:x`. -/
def Obligations.RegisterAfterKAdvances : Prop :=
  ∀ (s : State),
    (∀ k, k ≤ 8 → (s.advanceTimes k).hi =
      (s.hi >>> k) ||| ((s.lo &&& BitVec.ofNat 8 (2 ^ k - 1)) <<< (8 - k))) ∧
    (s.advanceTimes 8).hi = s.lo ∧ (s.advanceTimes 8).lo = loAfter 8 s.lo ∧
    ∀ k, 8 ≤ k → (s.advanceTimes k).hi = (s.advanceTimes (k - 8)).lo

/-- Spec R127: the map on `lo` is a bijection with the inverse the spec gives and fixes 0x00; the 255 nonzero values
form one cycle; each returns after exactly 255 advances and not before; a period holds 128 ones; and from 0x01 the
sequence begins as the spec lists it. -/
def Obligations.MapOnLoIsOneCycleOfLength255 : Prop :=
  (∀ x : Byte, advanceLoInverse (advanceLo x) = x ∧ advanceLo (advanceLoInverse x) = x) ∧
  advanceLo 0x00#8 = 0x00#8 ∧
  (∀ x y : Byte, x ≠ 0x00#8 → y ≠ 0x00#8 → ∃ k, k < 255 ∧ loAfter k x = y) ∧
  (∀ x : Byte, x ≠ 0x00#8 → loAfter 255 x = x ∧ ∀ k, 0 < k → k < 255 → loAfter k x ≠ x) ∧
  (∀ x : Byte, x ≠ 0x00#8 → (List.range 255).countP (fun t => outputSeq x t == 1#1) = 128) ∧
  (List.range 17).map (fun k => loAfter k 0x01#8) =
    [0x01#8, 0x80#8, 0x40#8, 0x20#8, 0x90#8, 0x48#8, 0xA4#8, 0x52#8, 0x29#8, 0x94#8, 0xCA#8, 0xE5#8, 0xF2#8,
      0xF9#8, 0xFC#8, 0xFE#8, 0xFF#8]

/-- Spec R128: (a) `00:00` is a fixed point with output 0; (b) from `lo = 0x00` the feedback and every output bit
are 0, each advance halves `hi`, and the register is `00:00` after exactly `bitlength(hi)` advances and not before; (c) from `lo ≠ 0x00`, `lo` never
becomes 0x00 and every 8 consecutive output bits contain a 1. -/
def Obligations.ZeroLowByteIsTheOnlyTrap : Prop :=
  (∀ (s : State) (k : Nat), s.hi = 0x00#8 → s.lo = 0x00#8 →
    (s.advanceTimes k).hi = 0x00#8 ∧ (s.advanceTimes k).lo = 0x00#8 ∧ outputSeq s.lo k = 0#1) ∧
  (∀ (s : State) (k : Nat), s.lo = 0x00#8 →
    feedback s.lo = 0#1 ∧ (s.advanceTimes k).lo = 0x00#8 ∧ outputSeq s.lo k = 0#1 ∧
    (s.advanceTimes k).hi = s.hi >>> k ∧
    ((s.advanceTimes k).hi = 0x00#8 ↔ bitLength s.hi ≤ k)) ∧
  (∀ (s : State) (k : Nat), s.lo ≠ 0x00#8 →
    (s.advanceTimes k).lo ≠ 0x00#8 ∧ ∃ i, i < 8 ∧ outputSeq s.lo (k + i) = 1#1)

/-- Spec R129: two states have the same successor exactly when they differ in `hi[0]` alone; the successors are the
states whose `hi[7]` is bit 0 of the inverse of `lo`; a state is cyclic exactly when `lo` is `hi` advanced 8 times;
and 8 advances reach a cyclic state from anywhere. -/
def Obligations.CyclicStatesAreThoseWhoseHiPrecedesLo : Prop :=
  (∀ h x h' x' : Byte, (advanceHi h x = advanceHi h' x' ∧ advanceLo x = advanceLo x') ↔
    (x = x' ∧ ∀ i, 1 ≤ i → h.getLsbD i = h'.getLsbD i)) ∧
  (∀ h x : Byte, (∃ h' x', advanceHi h' x' = h ∧ advanceLo x' = x) ↔
    h.getLsbD 7 = (advanceLoInverse x).getLsbD 0) ∧
  (∀ h x : Byte, Cyclic h x ↔ x = loAfter 8 h) ∧
  ∀ s : State, Cyclic (s.advanceTimes 8).hi (s.advanceTimes 8).lo

/-! ## Output commands (spec 42_output.md) -/

/-- Spec R140: `get_bit` advances once and delivers the output bit, 0x00 or 0x01, to `last_value` and the response;
every other word of its opcode is illegal; it differs from `advance_bit` in writing `last_value` alone. -/
def Obligations.GetBitDeliversTheOutputBit : Prop :=
  decode 0x500000#24 = .instr .getBit ∧
  (∀ (w : CmdWord) (s : State), opField w = 5#4 → w ≠ 0x500000#24 → EndsInError w s .illegalCommand) ∧
  ∀ s : State, ∃ t u, exec .getBit s = .next t ∧
    t.hi = s.advance.hi ∧ t.lo = s.advance.lo ∧ t.lastValue = t.rspData ∧
    CompletedWith s t .ok (if s.lo.getLsbD 0 then 0x01#8 else 0x00#8) ∧
    exec .advanceBit s = .next u ∧ t = { u with lastValue := t.lastValue }

/-- Spec R141: `get_bits n` for `1 <= n <= 8` advances `n` times, puts the `i`-th produced bit at bit `i` and zeros
above, and delivers the byte to `last_value` and the response; for any other `n` it raises InvalidArgument and
advances nothing; a nonzero A or RSV is illegal; `get_bits 1` is `get_bit` and `get_bits 8` is `get_byte` in every
effect. -/
def Obligations.GetBitsPacksTheProducedBits : Prop :=
  (∀ n : Byte, decode (0x600000#24 ||| n.setWidth 24) = .instr (.getBits n)) ∧
  (∀ (w : CmdWord) (s : State), opField w = 6#4 → rsvField w ≠ 0#4 ∨ aField w ≠ 0#8 →
    EndsInError w s .illegalCommand) ∧
  (∀ (n : Byte) (s : State), 1 ≤ n.toNat → n.toNat ≤ 8 → ∃ t r, exec (.getBits n) s = .next t ∧
    t.hi = hiAfter n.toNat s.hi s.lo ∧ t.lo = loAfter n.toNat s.lo ∧
    (∀ i, i < n.toNat → r.getLsbD i = (outputSeq s.lo i).getLsbD 0) ∧
    (∀ i, n.toNat ≤ i → r.getLsbD i = false) ∧
    t.lastValue = r ∧ CompletedWith s t .ok r) ∧
  (∀ (n : Byte) (s : State), n.toNat < 1 ∨ 8 < n.toNat → ∃ t, exec (.getBits n) s = .next t ∧
    SameGenerator s t ∧ CompletedWith s t .invalidArgument 0x00#8) ∧
  ∀ s : State, exec (.getBits 1#8) s = exec .getBit s ∧ exec (.getBits 8#8) s = exec .getByte s

/-- Spec R142: `get_byte` delivers the `lo` it found to `last_value` and the response and advances 8 times; from
`lo = 0x00` it delivers 0x00 and leaves `00:00`; afterwards `hi` holds the byte delivered; every other word of its
opcode is illegal. -/
def Obligations.GetByteDeliversTheSnapshotOfLo : Prop :=
  decode 0x700000#24 = .instr .getByte ∧
  (∀ (w : CmdWord) (s : State), opField w = 7#4 → w ≠ 0x700000#24 → EndsInError w s .illegalCommand) ∧
  ∀ s : State, ∃ t, exec .getByte s = .next t ∧
    t.hi = hiAfter 8 s.hi s.lo ∧ t.lo = loAfter 8 s.lo ∧ t.lastValue = s.lo ∧ CompletedWith s t .ok s.lo ∧
    t.hi = t.rspData ∧
    (s.lo = 0x00#8 → t.rspData = 0x00#8 ∧ t.hi = 0x00#8 ∧ t.lo = 0x00#8)

/-- Spec R143: for `1 <= n <= 8` the result of `get_bits n` is the low `n` bits of `lo`, and `hi` and `lo` are as
the closed form says. -/
def Obligations.GetBitsResultIsTheLowBitsOfLo : Prop :=
  ∀ (n : Byte) (s : State), 1 ≤ n.toNat → n.toNat ≤ 8 → ∃ t, exec (.getBits n) s = .next t ∧
    t.rspData = (s.lo &&& BitVec.ofNat 8 (2 ^ n.toNat - 1)) ∧
    t.hi = ((s.hi >>> n.toNat) ||| (t.rspData <<< (8 - n.toNat))) ∧
    t.lo = loAfter n.toNat s.lo

/-- Spec R144: `get_bits 8` and `get_byte` have the same effect from every state: the starting `lo` is returned,
stored in `last_value` and left in `hi`, and `lo` is advanced 8 times. -/
def Obligations.GetBitsEightEqualsGetByte : Prop :=
  ∀ s : State, exec (.getBits 8#8) s = exec .getByte s ∧ ∃ t, exec (.getBits 8#8) s = .next t ∧
    t.rspData = s.lo ∧ t.hi = s.lo ∧ t.lo = loAfter 8 s.lo ∧ t.lastValue = s.lo

/-- Spec R145: of two `get_byte` commands in a row the second returns what `lo` is after 8 advances from the first
one's start; after each, and after `get_bits 8`, `hi` is the byte just returned. From `00:A5` they return 0xA5 and
0xD5. -/
def Obligations.SecondGetByteReturnsLoAfterEightAdvances : Prop :=
  ∀ s : State, ∃ t u v, exec .getByte s = .next t ∧ exec .getByte t = .next u ∧
    exec (.getBits 8#8) s = .next v ∧ v.hi = v.rspData ∧ t.hi = t.rspData ∧ u.hi = u.rspData ∧ u.rspData = loAfter 8 s.lo ∧
    (s.hi = 0x00#8 → s.lo = 0xA5#8 → t.rspData = 0xA5#8 ∧ u.rspData = 0xD5#8)

/-- Spec R24: only a successful `get_bit`, `get_bits` or `get_byte` writes `last_value`, with the value it returns;
every other command word, the erroneous ones among them, leaves it; and reset writes its reset value. -/
def Obligations.OnlySuccessfulOutputsWriteLastValue : Prop :=
  (∀ (w : CmdWord) (s : State), ∃ t, runWord w s = .next t ∧
    ((decode w = .instr .getBit ∨ decode w = .instr .getByte ∨
        (∃ n : Byte, decode w = .instr (.getBits n) ∧ 1 ≤ n.toNat ∧ n.toNat ≤ 8)) →
      t.lastValue = t.rspData ∧ t.rspStatus = 0#2) ∧
    (¬(decode w = .instr .getBit ∨ decode w = .instr .getByte ∨
        (∃ n : Byte, decode w = .instr (.getBits n) ∧ 1 ≤ n.toNat ∧ n.toNat ≤ 8)) →
      t.lastValue = s.lastValue)) ∧
  ∀ (e : EdgeInput) (s : State), e.rst = true → ∃ t, clockEdge e s = .next t ∧ t.lastValue = 0x00#8

/-- Spec R146: after any list of command words, `last_value` is what the most recent successful output command
delivered, and before the first one it is what it was at the start (0x00 after reset). -/
def Obligations.LastValueIsTheMostRecentDelivery : Prop :=
  ∀ (ws : List CmdWord) (s : State), ∃ t, runWords ws s = .next t ∧ t.lastValue = lastDelivery s.lastValue ws s

/-! ## Errors (spec 60_exceptions.md) -/

/-- Spec R160: whatever makes a word end in an error, a reserved opcode, a field check or the range of `get_bits`,
it writes the error's code and 0x00 to the response registers, pulses `rsp_valid`, and writes nothing else. -/
def Obligations.ErrorsWriteOnlyTheResponse : Prop :=
  (∀ (s : State) (e : CommandError), s.raise e =
    { s with rspStatus := e.status.code, rspData := 0x00#8, rspValid := true, inFlight := none }) ∧
  ∀ (w : CmdWord) (s : State),
    (wellFormedWord w = false → EndsInError w s .illegalCommand) ∧
    (∀ n : Byte, decode w = .instr (.getBits n) → ¬(1 ≤ n.toNat ∧ n.toNat ≤ 8) →
      EndsInError w s .invalidArgument)

/-- Spec R162: a word reports INVALID_ARGUMENT exactly when it is a `get_bits` whose count is 0 or at least 9; then
the data is 0x00 and the generator is as before. -/
def Obligations.InvalidArgumentIsRaisedByGetBitsAlone : Prop :=
  ∀ (w : CmdWord) (s : State), ∃ t, runWord w s = .next t ∧
    (t.rspStatus = 1#2 ↔ ∃ n : Byte, decode w = .instr (.getBits n) ∧ (n = 0#8 ∨ 9 ≤ n.toNat)) ∧
    (t.rspStatus = 1#2 → t.rspData = 0x00#8 ∧ SameGenerator s t)

/-- Spec R163: an advancing command from any state with `lo = 0x00`, `advance_bits 0`, `set_seed 0, 0` and `fix_seed`
on a nonzero state are not errors: each completes with OK. -/
def Obligations.DegenerateCasesAreNotErrors : Prop :=
  (∀ (s : State) (i : Instr), s.lo = 0x00#8 →
    (i = .advanceBit ∨ (∃ n, i = .advanceBits n) ∨ i = .getBit ∨ i = .getByte ∨
      (∃ n : Byte, i = .getBits n ∧ 1 ≤ n.toNat ∧ n.toNat ≤ 8)) →
    ∃ t, exec i s = .next t ∧ CompletedWith s t .ok 0x00#8) ∧
  (∀ s : State, ∃ t, exec (.advanceBits 0#8) s = .next t ∧ CompletedWith s t .ok 0x00#8 ∧ SameGenerator s t) ∧
  (∀ s : State, ∃ t, exec (.setSeed 0x00#8 0x00#8) s = .next t ∧ CompletedWith s t .ok 0x00#8) ∧
  ∀ s : State, ¬(s.hi = 0x00#8 ∧ s.lo = 0x00#8) →
    ∃ t, exec .fixSeed s = .next t ∧ CompletedWith s t .ok 0x00#8 ∧ SameGenerator s t

/-- Spec R164 and R165: every word reports exactly one status, decided by the first check that fails, in this order:
the opcode, RSV, the unused operand fields, the range of `get_bits`; so ILLEGAL_COMMAND beats INVALID_ARGUMENT. And
reset beats a completion due at the same edge. -/
def Obligations.FirstFailingCheckDecidesTheStatus : Prop :=
  (∀ (w : CmdWord) (s : State), ∃ t, runWord w s = .next t ∧ t.rspStatus =
    (if 8 ≤ (opField w).toNat then 2#2
      else if rsvField w ≠ 0#4 then 2#2
      else if opField w = 1#4 then 0#2
      else if opField w = 4#4 then (if aField w ≠ 0#8 then 2#2 else 0#2)
      else if opField w = 6#4 then
        (if aField w ≠ 0#8 then 2#2 else if bField w = 0#8 ∨ 9 ≤ (bField w).toNat then 1#2 else 0#2)
      else if aField w ≠ 0#8 ∨ bField w ≠ 0#8 then 2#2 else 0#2)) ∧
  ∀ (e : EdgeInput) (s : State), e.rst = true → clockEdge e s = .next (State.resetWith s.params s.cycle s.inputs)

/-- Spec R164 and I10: in a state that meets the invariant the status port reads one of the three codes, and after a
command word it reads the status the word reported; a state whose code is 3 is stuck there. -/
def Obligations.StatusPortReadsALegalCode : Prop :=
  (∀ s : State, s.Inv → ∃ st, s.readStatus = .next st ∧ st.code = s.rspStatus) ∧
  (∀ (w : CmdWord) (s : State), ∃ t st, runWord w s = .next t ∧ t.readStatus = .next st ∧ st.code = t.rspStatus) ∧
  ∀ s : State, s.rspStatus = 3#2 → s.readStatus = .fault .reservedStatus

/-! ## Reset, protocol and timing (spec 70_reset_and_hazards.md) -/

/-- Spec R34, R190 and R191: from every state, busy or not, an edge with `rst = 1` gives every register its reset
value, whatever `cmd_valid` is; the next cycle shows `cmd_ready = 1`, `rsp_valid = 0` and the reset state on the
observation ports; and a command is accepted at the next edge with `rst = 0`. -/
def Obligations.ResetEdgeRestoresEveryRegister : Prop :=
  ∀ (s : State) (e : EdgeInput), e.rst = true → ∃ t, clockEdge e s = .next t ∧
    t.hi = s.params.defaultSeed.extractLsb' 8 8 ∧ t.lo = s.params.defaultSeed.extractLsb' 0 8 ∧
    t.lastValue = 0x00#8 ∧ t.rspData = 0x00#8 ∧ t.rspStatus = 0#2 ∧ t.rspValid = false ∧ t.inFlight = none ∧
    SameSurroundings s t ∧
    t.cmdReady = true ∧ t.obsPort .hi = t.hi ∧ t.obsPort .lo = t.lo ∧ t.obsPort .last = 0x00#8 ∧
    ∀ w : CmdWord, clockEdge (.present w) t = acceptWord w t

/-- The reset state: spec R34 with the spec's default parameters. The cycle's number 0 and the empty list of the
host's inputs are the model's own (log 5, log 6). -/
def Obligations.ResetStateHoldsTheDefaultSeed : Prop :=
  State.reset.hi ++ State.reset.lo = 0x0001#16 ∧ State.reset.lastValue = 0x00#8 ∧
  State.reset.rspData = 0x00#8 ∧ State.reset.rspStatus = 0#2 ∧ State.reset.rspValid = false ∧
  State.reset.busy = false ∧ State.reset.cmdReady = true ∧ State.reset.params = Params.specDefault

/-- Spec R196: at an edge with `rst = 0`, `cmd_valid = 1` and the block ready, the word there is accepted: it completes
there when `LAT` is 1, and is in flight after it when `LAT` is more, with `LAT - 1` edges to go (spec R197). At every
other edge, those of a busy block, those without `cmd_valid` and those with reset, `cmd_valid` and `cmd_word` are
ignored. (That the registers hold their old values in the busy cycle after the acceptance is the model's reading of
R197 and R198, log 9; that a latency of 0, which R10 forbids, runs as 1 is its choice, log 2.) -/
def Obligations.CommandsAreAcceptedOnlyAtReadyEdges : Prop :=
  (∀ (s : State) (w : CmdWord) (e : EdgeInput), s.cmdReady = true → e.rst = false → e.cmdValid = true →
    e.cmdWord = .stable w →
    (latencyOf s.params w ≤ 1 → clockEdge e s = runWord w s) ∧
    (2 ≤ latencyOf s.params w → ∃ t q, clockEdge e s = .next t ∧ t.inFlight = some q ∧ q.command = w ∧
      q.cyclesLeft = latencyOf s.params w - 1 ∧ SameGenerator s t)) ∧
  ∀ (s : State) (e e' : EdgeInput),
    (e.rst = true ∧ e'.rst = true) ∨
    (e.rst = false ∧ e'.rst = false ∧ (s.cmdReady = false ∨ (e.cmdValid = false ∧ e'.cmdValid = false))) →
    clockEdge e s = clockEdge e' s

/-- Spec R204: the model refuses exactly the runs whose `cmd_word` is not stable at the accepting edge; at every
other edge it may change freely. -/
def Obligations.OnlyAnUnstableAcceptedWordIsRefused : Prop :=
  ∀ (e : EdgeInput) (s : State),
    ((∃ r, clockEdge e s = .refused r) ↔
      (e.rst = false ∧ s.cmdReady = true ∧ e.cmdValid = true ∧ e.cmdWord = .unstable)) ∧
    (∀ r, clockEdge e s = .refused r → r = .unstableCommandWord) ∧
    ¬∃ f, clockEdge e s = .fault f

/-- Spec R197 and R198: a command accepted at an edge with `L = LAT(c)` and no reset in its window keeps the block
busy, without a pulse and with the response held, in the `L - 1` cycles after it, and in the cycle after those shows
its effect as a whole, one pulse and `cmd_ready = 1`; the pulse ends at the next edge, whatever that is, unless it accepts
a command of one cycle and so completes it at once. -/
def Obligations.AcceptedCommandCompletesAfterItsLatency : Prop :=
  ∀ (s : State) (w : CmdWord) (rest : List EdgeInput),
    s.inFlight = none → s.inputs = .present w :: rest → 1 ≤ latencyOf s.params w →
    (∀ e ∈ rest.take (latencyOf s.params w - 1), e.rst = false) →
    (∀ j, 1 ≤ j → j < latencyOf s.params w → ∃ u, ticks j s = .next u ∧ u.cmdReady = false ∧
      u.rspValid = false ∧ u.rspData = s.rspData ∧ u.rspStatus = s.rspStatus) ∧
    ∃ t u, ticks (latencyOf s.params w) s = .next t ∧ runWord w s = .next u ∧
      t.cmdReady = true ∧ t.rspValid = true ∧
      t.hi = u.hi ∧ t.lo = u.lo ∧ t.lastValue = u.lastValue ∧ t.rspData = u.rspData ∧ t.rspStatus = u.rspStatus ∧
      t.inputs = rest.drop (latencyOf s.params w - 1) ∧ t.cycle = s.cycle + latencyOf s.params w ∧
      ∀ e v, clockEdge e t = .next v →
        ¬(e.rst = false ∧ e.cmdValid = true ∧ ∃ w', e.cmdWord = .stable w' ∧ latencyOf t.params w' ≤ 1) →
        v.rspValid = false

/-- Spec R197, the pulse: `rsp_valid` is 1 after an edge only where that edge completed a command: one in flight at
its last edge, or one accepted with `LAT = 1`. -/
def Obligations.ResponsePulseMeansACompletion : Prop :=
  ∀ (e : EdgeInput) (s t : State), clockEdge e s = .next t → t.rspValid = true →
    e.rst = false ∧ t.cmdReady = true ∧
    ((∃ q, s.inFlight = some q ∧ q.cyclesLeft ≤ 1 ∧ runWord q.command s = .next t) ∨
      (∃ w, s.inFlight = none ∧ e.cmdValid = true ∧ e.cmdWord = .stable w ∧ latencyOf s.params w ≤ 1 ∧
        runWord w s = .next t))

/-- Spec R200 for `rsp_data` and `rsp_status`, and spec R198 for the others: the registers change only at a completion
or a reset: an edge without reset that ends without a pulse leaves `rsp_data`, `rsp_status`, `hi`, `lo` and
`last_value` as they were. (That `hi`, `lo` and `last_value` hold their old values in the busy cycles too, where no
port shows them, is the model's reading of R197, R198 and R203: log 9.) -/
def Obligations.RegistersHoldBetweenCompletions : Prop :=
  ∀ (e : EdgeInput) (s t : State), clockEdge e s = .next t → e.rst = false → t.rspValid = false →
    t.rspData = s.rspData ∧ t.rspStatus = s.rspStatus ∧ SameGenerator s t ∧ SameSurroundings s t

/-- Spec R174: an idle block to which the host presents nothing holds its state for as long as it is clocked.
(Past the end of its list of inputs the host presents nothing: the model's convention, log 6.) -/
def Obligations.IdleBlockHoldsItsState : Prop :=
  ∀ (n : Nat) (s : State), s.inFlight = none → (∀ e ∈ s.inputs, e.rst = false ∧ e.cmdValid = false) →
    ∃ t, ticks n s = .next t ∧ SameGenerator s t ∧ t.rspData = s.rspData ∧ t.rspStatus = s.rspStatus ∧
      t.inFlight = none ∧ t.params = s.params ∧ t.cycle = s.cycle + n ∧ (0 < n → t.rspValid = false)

/-- Spec R190 and R207: a reset at any edge between the acceptance of a command and its completion aborts it: the
step, which is the model's transaction (log 7), ends in the reset state, with no pulse and no partial effect. -/
def Obligations.ResetInFlightAbortsTheCommand : Prop :=
  ∀ (s : State) (w : CmdWord) (before rest : List EdgeInput) (e : EdgeInput),
    s.inFlight = none → s.inputs = .present w :: (before ++ e :: rest) →
    (∀ b ∈ before, b.rst = false) → e.rst = true → before.length + 1 < latencyOf s.params w →
    step s = .next (State.resetWith s.params (s.cycle + before.length + 2) rest)

/-- Spec R36: while the block is idle the observation ports show `hi`, `lo` and `last_value`, and the other ports
their registers. (While it is busy the model gives the observation ports no value that a proof can see: log 3.) -/
def Obligations.ObservationPortsShowTheRegistersWhileIdle : Prop :=
  ∀ s : State, s.cmdReady = true →
    s.ports = ⟨true, s.rspValid, s.rspStatus, s.rspData, s.hi, s.lo, s.lastValue⟩

/-- Spec R199: the default `LAT` table. -/
def Obligations.DefaultLatencyTable : Prop :=
  ∀ p : Params, p.latencyOverrides = [] →
    latencyOf p (encode .init) = 1 ∧ (∀ hi lo, latencyOf p (encode (.setSeed hi lo)) = 1) ∧
    latencyOf p (encode .fixSeed) = 1 ∧ latencyOf p (encode .advanceBit) = 1 ∧ latencyOf p (encode .getBit) = 1 ∧
    (∀ n : Byte, latencyOf p (encode (.advanceBits n)) = max 1 n.toNat) ∧
    (∀ n : Byte, latencyOf p (encode (.getBits n)) = if 1 ≤ n.toNat ∧ n.toNat ≤ 8 then n.toNat else 1) ∧
    latencyOf p (encode .getByte) = 8 ∧
    ∀ w : CmdWord, wellFormedWord w = false → latencyOf p w = 1

/-- Spec R10: with parameters that meet their constraints every command word takes at least one cycle. -/
def Obligations.LatencyIsAtLeastOneCycle : Prop :=
  ∀ (p : Params) (w : CmdWord), p.wellFormed = true → 1 ≤ latencyOf p w

/-! ## The step -/

/-- A STEP RUNS THE DECODED INSTRUCTION. At an idle state whose host presents a word, with no reset in the word's
window, the step is `exec` of the decoded instruction, or IllegalCommand for a word the decoder rejects, at the
state whose inputs are past the window and whose cycle number counts it (log 7). `withFetchWord` sets such a state
up (log 8). -/
def Obligations.StepRunsTheDecodedInstruction : Prop :=
  (∀ (s : State) (w : CmdWord) (rest : List EdgeInput), s.inFlight = none → s.inputs = .present w :: rest →
    (∀ e ∈ rest.take (latencyOf s.params w - 1), e.rst = false) →
    (∀ i, decode w = .instr i → step s = exec i
      { s with inputs := rest.drop (latencyOf s.params w - 1), cycle := s.cycle + max 1 (latencyOf s.params w) }) ∧
    (∀ d, decode w = .illegal d → step s = .next (State.raise
      { s with inputs := rest.drop (latencyOf s.params w - 1), cycle := s.cycle + max 1 (latencyOf s.params w) }
      .illegalCommand))) ∧
  ∀ (s : State) (nbits w : Nat) (i : Instr), decodeTableWord nbits w = some i →
    step (s.withFetchWord nbits w) = exec i
      { s with inFlight := none, inputs := [],
               cycle := s.cycle + max 1 (latencyOf s.params (tableWord nbits w)) }

/-- THE INVARIANT HOLDS AFTER RESET. -/
def Obligations.ResetMeetsTheInvariant : Prop := State.reset.Inv

/-- EVERY EDGE AND EVERY STEP KEEP THE INVARIANT: `rsp_status` is never the reserved code 3 (spec R164, I10), a command
in flight has an edge to go and shows no pulse (spec R197), and the parameters keep their constraints (spec R8, R9,
R10). A step is the model's transaction and ends idle (log 7), so the clause about a command in flight is the edge's:
`clockEdge` with any inputs, and `tick` with the host's next ones. -/
def Obligations.StepKeepsTheInvariant : Prop :=
  (∀ (e : EdgeInput) (s t : State), s.Inv → clockEdge e s = .next t → t.Inv) ∧
  (∀ s t : State, s.Inv → tick s = .next t → t.Inv) ∧
  ∀ s t : State, s.Inv → step s = .next t → t.Inv

/-- A step, which is the model's transaction (log 7), never stops while the host keeps `cmd_word` stable (spec R204), and
it is never a fault. -/
def Obligations.StepCompletesWhileWordsAreStable : Prop :=
  (∀ s : State, (∀ e ∈ s.inputs, e.stableWord = true) →
    ∃ t, step s = .next t ∧ ∀ e ∈ t.inputs, e.stableWord = true) ∧
  ∀ (s : State) (f : Fault), step s ≠ .fault f

/-- A LIVE GENERATOR STAYS LIVE (spec R201, R128 (c)): from an idle state with `lo ≠ 0x00`, while the host presents
no seed with low byte 0x00 (at an edge with `rst = 1` or `cmd_valid = 0` anything may stand on `cmd_word`), every step,
reset and `init` and `fix_seed` among them, leaves `lo ≠ 0x00`. (A step is the model's transaction: log 7.) -/
def Obligations.StepKeepsTheGeneratorLive : Prop :=
  ∀ s t : State, s.Inv → s.inFlight = none → s.live = true → (∀ e ∈ s.inputs, e.keepsLive = true) →
    step s = .next t →
    t.Inv ∧ t.inFlight = none ∧ t.live = true ∧ ∀ e ∈ t.inputs, e.keepsLive = true

/-- THE BLOCK REFINES THE LIST OF ITS COMMANDS (spec R45, R49, R206): a host that presents a list of words, each as
soon as the block is ready, sees after as many steps exactly the registers that the words leave as atomic
transitions in acceptance order. (One step to a word is the model's transaction: log 7.) -/
def Obligations.ScheduledCommandsTakeEffectInOrder : Prop :=
  ∀ (ws : List CmdWord) (s : State) (rest : List EdgeInput), s.inFlight = none → ∃ t u,
    runWords ws s = .next t ∧
    steps ws.length { s with inputs := hostSchedule s.params ws ++ rest } = .next u ∧
    SameGenerator t u ∧ u.rspData = t.rspData ∧ u.rspStatus = t.rspStatus ∧ u.rspValid = t.rspValid ∧
    u.inFlight = none ∧ u.params = s.params ∧ u.inputs = rest

/-- One response per accepted command (spec R175, R176): the responses a host sees are those of the words in
acceptance order. (One step to a word is the model's transaction: log 7.) -/
def Obligations.EveryAcceptedCommandGivesOneResponse : Prop :=
  ∀ (ws : List CmdWord) (s : State), s.inFlight = none → ∃ rs u,
    responsesOf ws.length { s with inputs := hostSchedule s.params ws } = .next (rs, u) ∧
    rs.length = ws.length ∧
    ∀ i, i < ws.length → ∃ v, runWords (ws.take (i + 1)) s = .next v ∧
      rs[i]? = some ⟨v.rspStatus, v.rspData⟩

/-- Spec R176: a run of a host's list of words ends, after as many steps, idle and with nothing presented; what it
shows is the architectural state that the words leave as atomic transitions, and one response per word. (A step is the
model's transaction, log 7; a run with no reset left to drive has ended, log 15.) -/
def Obligations.EndedRunShowsTheFinalStateAndResponses : Prop :=
  ∀ (ws : List CmdWord) (s : State), s.Inv → s.inFlight = none → ∃ t o,
    runWords ws s = .next t ∧
    observeRun ws.length { s with inputs := hostSchedule s.params ws } = .next (some o) ∧
    o.hi = t.hi ∧ o.lo = t.lo ∧ o.lastValue = t.lastValue ∧ o.rspData = t.rspData ∧
    o.rspStatus.code = t.rspStatus ∧ o.responses.length = ws.length

/-- No command's effect depends on `LAT` (spec R10, R208): two blocks that differ in `LAT` alone, each driven at its
own pace, leave the same registers after the same words. (One step to a word is the model's transaction: log 7.) -/
def Obligations.EffectsDoNotDependOnLatency : Prop :=
  ∀ (ws : List CmdWord) (s : State) (lat : List (CmdWord × Nat)), s.inFlight = none →
    let p := { s.params with latencyOverrides := lat }
    ∃ t u,
      steps ws.length { s with inputs := hostSchedule s.params ws } = .next t ∧
      steps ws.length { s with params := p, inputs := hostSchedule p ws } = .next u ∧
      SameGenerator t u ∧ u.rspData = t.rspData ∧ u.rspStatus = t.rspStatus

/-! ## The assembler (spec 30_encoding.md section 6) -/

/-- Spec R73: the expansions of the pseudo-instructions. -/
def Obligations.PseudoInstructionsExpandAsListed : Prop :=
  assembleStatement .getNibble [] = .words [0x600004#24] ∧
  ∀ a b : Byte,
    assembleStatement .seedRuntime [a.toNat, b.toNat] =
      .words [0x100000#24 ||| (a ++ b).setWidth 24, 0x200000#24] ∧
    assembleStatement .seedFixed [a.toNat, b.toNat] = .words [0x100000#24 ||| (a ++ b).setWidth 24] ∧
    assembleStatement .prime [b.toNat] = .words [0x400000#24 ||| b.setWidth 24]

/-- Spec R71, R72 and R73. Each mnemonic with operands in 0 to 255 assembles to the one word that decodes to its
command, the counts that `get_bits` raises InvalidArgument on among them; an operand outside 0 to 255 is refused and
not truncated, in the pseudo-instructions too; `.word` emits any 24-bit value and refuses a larger one. In the text, a
line is a name and its operands, each decimal or hexadecimal with `0x`, separated by commas; `;` begins a comment; and
the lines of a program give their words in order. (The spaces between the parts are the model's choice, log 11.) -/
def Obligations.AssemblerEncodesOrRefusesEveryOperand : Prop :=
  (assembleStatement .init [] = .words [0x000000#24] ∧ assembleStatement .fixSeed [] = .words [0x200000#24] ∧
    assembleStatement .advanceBit [] = .words [0x300000#24] ∧ assembleStatement .getBit [] = .words [0x500000#24] ∧
    assembleStatement .getByte [] = .words [0x700000#24]) ∧
  (∀ a b : Byte, ∃ x y z : CmdWord,
    assembleStatement .setSeed [a.toNat, b.toNat] = .words [x] ∧ decode x = .instr (.setSeed a b) ∧
    assembleStatement .advanceBits [b.toNat] = .words [y] ∧ decode y = .instr (.advanceBits b) ∧
    assembleStatement .getBits [b.toNat] = .words [z] ∧ decode z = .instr (.getBits b)) ∧
  (∀ op ∈ [AsmOp.setSeed, .seedRuntime, .seedFixed], ∀ m n : Nat, 255 < m ∨ 255 < n →
    assembleStatement op [m, n] = .refused .operandOutOfRange) ∧
  (∀ op ∈ [AsmOp.advanceBits, .getBits, .prime], ∀ n : Nat, 255 < n →
    assembleStatement op [n] = .refused .operandOutOfRange) ∧
  (∀ v : Nat, (v ≤ 0xFFFFFF → ∃ w, assembleStatement .word [v] = .words [w] ∧ w.toNat = v) ∧
    (0xFFFFFF < v → assembleStatement .word [v] = .refused .operandOutOfRange)) ∧
  (∀ op : AsmOp, assembleLine op.spelling = assembleStatement op []) ∧
  (∀ (op : AsmOp) (m : Nat), ∀ x ∈ numberTexts m,
    assembleLine (op.spelling ++ ' ' :: x) = assembleStatement op [m]) ∧
  (∀ (op : AsmOp) (m n : Nat), ∀ x ∈ numberTexts m, ∀ y ∈ numberTexts n,
    assembleLine (op.spelling ++ ' ' :: (x ++ ',' :: ' ' :: y)) = assembleStatement op [m, n]) ∧
  (∀ line comment : List Char, assembleLine (line ++ ';' :: comment) = assembleLine line) ∧
  ∀ (line rest : List Char) (ws ws' : List CmdWord), '\n' ∉ line → assembleLine line = .words ws →
    assemble rest = .words ws' → assemble (line ++ '\n' :: rest) = .words (ws ++ ws')
end

