-- ==== Sys2Proof/Laws/Assembler.lean ====
section
/-! SUPPORT. Laws/Assembler.lean: what the text functions of the assembler do: a number is read back from its digits,
and a text without blanks, commas or `;` passes through trimming and splitting whole. -/
namespace Sys2Proof.Machine

/-- A digit is read back from its character, in base 10 and in base 16. -/
theorem digitValue_digitChar {b d : Nat} (hb : b ≤ 16) (hd : d < b) : digitValue b d.digitChar = some d := by
  have h : ∀ d, d < 16 → digitValue 16 d.digitChar = some d := by decide
  have hv := h d (by omega)
  simp only [digitValue, Option.ite_none_right_eq_some, Option.some.injEq] at hv ⊢
  exact ⟨by omega, hv.2⟩

theorem digitsValue_append (b acc : Nat) (xs ys : List Char) :
    digitsValue b acc (xs ++ ys) = (digitsValue b acc xs).bind (fun v => digitsValue b v ys) := by
  induction xs generalizing acc with
  | nil => rfl
  | cons c xs ih =>
    simp only [List.cons_append, digitsValue]
    cases digitValue b c with
    | none => rfl
    | some v => exact ih _

/-- A number is read back from its digits. -/
theorem digitsValue_toDigits {b : Nat} (h1 : 1 < b) (hb : b ≤ 16) (n : Nat) :
    digitsValue b 0 (Nat.toDigits b n) = some n := by
  induction n using Nat.strongRecOn with
  | ind n ih =>
    rw [Nat.toDigits_eq_if h1]
    split
    · next hn => simp [digitsValue, digitValue_digitChar hb hn]
    · next hn =>
      have hlt : n / b < n := Nat.div_lt_self (by omega) h1
      rw [digitsValue_append, ih _ hlt]
      simp [digitsValue, digitValue_digitChar hb (Nat.mod_lt n (by omega)), Nat.div_add_mod']

/-- No separator is a digit. -/
theorem digitValue_separator {b : Nat} (hb : b ≤ 16) {c : Char} (hc : c ∈ [' ', '\t', '\r', '\n', ',', ';', 'x']) :
    digitValue b c = none := by
  have h : [' ', '\t', '\r', '\n', ',', ';', 'x'].all (fun c => digitValue 16 c == none) = true := by decide
  have hv := eq_of_beq (List.all_eq_true.1 h c hc)
  simp only [digitValue, ite_eq_right_iff, reduceCtorEq, imp_false, Nat.not_lt] at hv ⊢
  omega

/-- A text with a value holds digits only. -/
theorem digitValue_of_digitsValue {b acc v : Nat} {cs : List Char} (h : digitsValue b acc cs = some v) :
    ∀ c ∈ cs, digitValue b c ≠ none := by
  induction cs generalizing acc with
  | nil => simp
  | cons a cs ih =>
    simp only [digitsValue] at h
    split at h
    · next w hw =>
      intro c hc
      rcases List.mem_cons.1 hc with rfl | hc
      · simp [hw]
      · exact ih h c hc
    · cases h

/-- The digits of a number hold no separator. -/
theorem separator_not_mem_toDigits {b : Nat} (h1 : 1 < b) (hb : b ≤ 16) (n : Nat) {c : Char}
    (hc : c ∈ [' ', '\t', '\r', '\n', ',', ';', 'x']) : c ∉ Nat.toDigits b n :=
  fun h => digitValue_of_digitsValue (digitsValue_toDigits h1 hb n) c h (digitValue_separator hb hc)

theorem toDigits_ne_nil {b : Nat} (h1 : 1 < b) (n : Nat) : Nat.toDigits b n ≠ [] := by
  rw [Nat.toDigits_eq_if h1]; split <;> simp

/-- Each spelling of a number is read as that number (spec R71). -/
theorem parseNumber_numberTexts (n : Nat) {x : List Char} (hx : x ∈ numberTexts n) : parseNumber x = some n := by
  simp only [numberTexts, List.mem_cons, List.not_mem_nil, or_false] at hx
  rcases hx with rfl | rfl
  · have hv := digitsValue_toDigits (b := 10) (by omega) (by omega) n
    have hs := separator_not_mem_toDigits (b := 10) (by omega) (by omega) n (c := 'x') (by simp)
    unfold parseNumber
    split
    · next h => simp [h] at hs
    · next _ h => rw [← hv, h]
    · next h => exact absurd h (toDigits_ne_nil (by omega) n)
  · rcases h : Nat.toDigits 16 n with _ | ⟨d, ds⟩
    · exact absurd h (toDigits_ne_nil (by omega) n)
    · rw [← digitsValue_toDigits (b := 16) (by omega) (by omega) n, h]; rfl

/-- A spelling of a number holds no blank, comma, `;` or line end, and something. -/
theorem numberTexts_plain (n : Nat) {x : List Char} (hx : x ∈ numberTexts n) :
    x ≠ [] ∧ ∀ c ∈ x, isBlank c = false ∧ c ≠ ',' ∧ c ≠ ';' ∧ c ≠ '\n' := by
  have hs : ∀ b, 1 < b → b ≤ 16 → ∀ c ∈ Nat.toDigits b n, isBlank c = false ∧ c ≠ ',' ∧ c ≠ ';' ∧ c ≠ '\n' := by
    intro b h1 hb c hc
    have key : ∀ a ∈ [' ', '\t', '\r', '\n', ',', ';', 'x'], c ≠ a :=
      fun a ha e => separator_not_mem_toDigits h1 hb n ha (e ▸ hc)
    simp only [List.forall_mem_cons] at key
    simp [isBlank, key]
  simp only [numberTexts, List.mem_cons, List.not_mem_nil, or_false] at hx
  rcases hx with rfl | rfl
  · exact ⟨toDigits_ne_nil (by omega) n, hs 10 (by omega) (by omega)⟩
  · refine ⟨by simp, ?_⟩
    intro c hc
    rcases List.mem_cons.1 hc with rfl | hc
    · decide
    · rcases List.mem_cons.1 hc with rfl | hc
      · decide
      · exact hs 16 (by omega) (by omega) c hc

/-- Dropping blanks leaves a text that does not begin with one. -/
theorem dropWhile_isBlank_cons {c : Char} (cs : List Char) (h : isBlank c = false) :
    (c :: cs).dropWhile isBlank = c :: cs := by
  simp [h]

/-- A text without blanks at its two ends is left as it is. -/
theorem trimBlanks_of_ends {cs : List Char} (hne : cs ≠ [])
    (hfirst : isBlank (cs.head hne) = false) (hlast : isBlank (cs.getLast hne) = false) : trimBlanks cs = cs := by
  have h1 : cs.dropWhile isBlank = cs := by
    cases cs with
    | nil => rfl
    | cons c cs => exact dropWhile_isBlank_cons cs hfirst
  have h2 : cs.reverse.dropWhile isBlank = cs.reverse := by
    cases hr : cs.reverse with
    | nil => rfl
    | cons c ds =>
      have hc : cs.getLast hne = c := by
        have := List.head_reverse (l := cs) (by simp [hne])
        simp only [hr, List.head_cons] at this
        exact this.symm
      exact dropWhile_isBlank_cons ds (hc ▸ hlast)
  simp [trimBlanks, h1, h2]

/-- One leading space is trimmed away. -/
theorem trimBlanks_space (cs : List Char) : trimBlanks (' ' :: cs) = trimBlanks cs := rfl

/-- A text without the separator is one part. -/
theorem splitAtChar_of_not_mem {sep : Char} {cs : List Char} (h : sep ∉ cs) : splitAtChar sep cs = [cs] := by
  induction cs with
  | nil => rfl
  | cons c cs ih =>
    simp only [List.mem_cons, not_or] at h
    have hc : (c == sep) = false := beq_false_of_ne (Ne.symm h.1)
    simp [splitAtChar, hc, ih h.2]

/-- A separator ends the part before it. -/
theorem splitAtChar_append {sep : Char} {cs : List Char} (ds : List Char) (h : sep ∉ cs) :
    splitAtChar sep (cs ++ sep :: ds) = cs :: splitAtChar sep ds := by
  induction cs with
  | nil => simp [splitAtChar]
  | cons c cs ih =>
    simp only [List.mem_cons, not_or] at h
    have hc : (c == sep) = false := beq_false_of_ne (Ne.symm h.1)
    simp [splitAtChar, hc, ih h.2]

end Sys2Proof.Machine
end

