-- ==== Sys2Proof/Laws/State.lean ====
section
/-! SUPPORT. Laws/State.lean: one lemma per field of `State` and per update, so that no later proof unfolds a
record update. -/
namespace Sys2Proof.Machine

@[simp] theorem State.writeRegister_hi (s : State) (h l : Byte) :
    (s.writeRegister h l).hi = h := rfl
@[simp] theorem State.writeRegister_lo (s : State) (h l : Byte) :
    (s.writeRegister h l).lo = l := rfl
@[simp] theorem State.writeRegister_lastValue (s : State) (h l : Byte) :
    (s.writeRegister h l).lastValue = s.lastValue := rfl
@[simp] theorem State.writeRegister_rspData (s : State) (h l : Byte) :
    (s.writeRegister h l).rspData = s.rspData := rfl
@[simp] theorem State.writeRegister_rspStatus (s : State) (h l : Byte) :
    (s.writeRegister h l).rspStatus = s.rspStatus := rfl
@[simp] theorem State.writeRegister_rspValid (s : State) (h l : Byte) :
    (s.writeRegister h l).rspValid = s.rspValid := rfl
@[simp] theorem State.writeRegister_inFlight (s : State) (h l : Byte) :
    (s.writeRegister h l).inFlight = s.inFlight := rfl
@[simp] theorem State.writeRegister_params (s : State) (h l : Byte) :
    (s.writeRegister h l).params = s.params := rfl
@[simp] theorem State.writeRegister_cycle (s : State) (h l : Byte) :
    (s.writeRegister h l).cycle = s.cycle := rfl
@[simp] theorem State.writeRegister_inputs (s : State) (h l : Byte) :
    (s.writeRegister h l).inputs = s.inputs := rfl

@[simp] theorem State.writeSeed_hi (s : State) (x : Seed) :
    (s.writeSeed x).hi = x.hiByte := rfl
@[simp] theorem State.writeSeed_lo (s : State) (x : Seed) :
    (s.writeSeed x).lo = x.loByte := rfl
@[simp] theorem State.writeSeed_lastValue (s : State) (x : Seed) :
    (s.writeSeed x).lastValue = s.lastValue := rfl
@[simp] theorem State.writeSeed_rspData (s : State) (x : Seed) :
    (s.writeSeed x).rspData = s.rspData := rfl
@[simp] theorem State.writeSeed_rspStatus (s : State) (x : Seed) :
    (s.writeSeed x).rspStatus = s.rspStatus := rfl
@[simp] theorem State.writeSeed_rspValid (s : State) (x : Seed) :
    (s.writeSeed x).rspValid = s.rspValid := rfl
@[simp] theorem State.writeSeed_inFlight (s : State) (x : Seed) :
    (s.writeSeed x).inFlight = s.inFlight := rfl
@[simp] theorem State.writeSeed_params (s : State) (x : Seed) :
    (s.writeSeed x).params = s.params := rfl
@[simp] theorem State.writeSeed_cycle (s : State) (x : Seed) :
    (s.writeSeed x).cycle = s.cycle := rfl
@[simp] theorem State.writeSeed_inputs (s : State) (x : Seed) :
    (s.writeSeed x).inputs = s.inputs := rfl

@[simp] theorem State.writeLastValue_hi (s : State) (v : Byte) :
    (s.writeLastValue v).hi = s.hi := rfl
@[simp] theorem State.writeLastValue_lo (s : State) (v : Byte) :
    (s.writeLastValue v).lo = s.lo := rfl
@[simp] theorem State.writeLastValue_lastValue (s : State) (v : Byte) :
    (s.writeLastValue v).lastValue = v := rfl
@[simp] theorem State.writeLastValue_rspData (s : State) (v : Byte) :
    (s.writeLastValue v).rspData = s.rspData := rfl
@[simp] theorem State.writeLastValue_rspStatus (s : State) (v : Byte) :
    (s.writeLastValue v).rspStatus = s.rspStatus := rfl
@[simp] theorem State.writeLastValue_rspValid (s : State) (v : Byte) :
    (s.writeLastValue v).rspValid = s.rspValid := rfl
@[simp] theorem State.writeLastValue_inFlight (s : State) (v : Byte) :
    (s.writeLastValue v).inFlight = s.inFlight := rfl
@[simp] theorem State.writeLastValue_params (s : State) (v : Byte) :
    (s.writeLastValue v).params = s.params := rfl
@[simp] theorem State.writeLastValue_cycle (s : State) (v : Byte) :
    (s.writeLastValue v).cycle = s.cycle := rfl
@[simp] theorem State.writeLastValue_inputs (s : State) (v : Byte) :
    (s.writeLastValue v).inputs = s.inputs := rfl

@[simp] theorem State.advance_hi (s : State) :
    (s.advance).hi = advanceHi s.hi s.lo := rfl
@[simp] theorem State.advance_lo (s : State) :
    (s.advance).lo = advanceLo s.lo := rfl
@[simp] theorem State.advance_lastValue (s : State) :
    (s.advance).lastValue = s.lastValue := rfl
@[simp] theorem State.advance_rspData (s : State) :
    (s.advance).rspData = s.rspData := rfl
@[simp] theorem State.advance_rspStatus (s : State) :
    (s.advance).rspStatus = s.rspStatus := rfl
@[simp] theorem State.advance_rspValid (s : State) :
    (s.advance).rspValid = s.rspValid := rfl
@[simp] theorem State.advance_inFlight (s : State) :
    (s.advance).inFlight = s.inFlight := rfl
@[simp] theorem State.advance_params (s : State) :
    (s.advance).params = s.params := rfl
@[simp] theorem State.advance_cycle (s : State) :
    (s.advance).cycle = s.cycle := rfl
@[simp] theorem State.advance_inputs (s : State) :
    (s.advance).inputs = s.inputs := rfl

@[simp] theorem State.respond_hi (s : State) (st : Status) (d : Byte) :
    (s.respond st d).hi = s.hi := rfl
@[simp] theorem State.respond_lo (s : State) (st : Status) (d : Byte) :
    (s.respond st d).lo = s.lo := rfl
@[simp] theorem State.respond_lastValue (s : State) (st : Status) (d : Byte) :
    (s.respond st d).lastValue = s.lastValue := rfl
@[simp] theorem State.respond_rspData (s : State) (st : Status) (d : Byte) :
    (s.respond st d).rspData = d := rfl
@[simp] theorem State.respond_rspStatus (s : State) (st : Status) (d : Byte) :
    (s.respond st d).rspStatus = st.code := rfl
@[simp] theorem State.respond_rspValid (s : State) (st : Status) (d : Byte) :
    (s.respond st d).rspValid = true := rfl
@[simp] theorem State.respond_inFlight (s : State) (st : Status) (d : Byte) :
    (s.respond st d).inFlight = none := rfl
@[simp] theorem State.respond_params (s : State) (st : Status) (d : Byte) :
    (s.respond st d).params = s.params := rfl
@[simp] theorem State.respond_cycle (s : State) (st : Status) (d : Byte) :
    (s.respond st d).cycle = s.cycle := rfl
@[simp] theorem State.respond_inputs (s : State) (st : Status) (d : Byte) :
    (s.respond st d).inputs = s.inputs := rfl

@[simp] theorem State.raise_hi (s : State) (e : CommandError) :
    (s.raise e).hi = s.hi := rfl
@[simp] theorem State.raise_lo (s : State) (e : CommandError) :
    (s.raise e).lo = s.lo := rfl
@[simp] theorem State.raise_lastValue (s : State) (e : CommandError) :
    (s.raise e).lastValue = s.lastValue := rfl
@[simp] theorem State.raise_rspData (s : State) (e : CommandError) :
    (s.raise e).rspData = 0x00#8 := rfl
@[simp] theorem State.raise_rspStatus (s : State) (e : CommandError) :
    (s.raise e).rspStatus = e.status.code := rfl
@[simp] theorem State.raise_rspValid (s : State) (e : CommandError) :
    (s.raise e).rspValid = true := rfl
@[simp] theorem State.raise_inFlight (s : State) (e : CommandError) :
    (s.raise e).inFlight = none := rfl
@[simp] theorem State.raise_params (s : State) (e : CommandError) :
    (s.raise e).params = s.params := rfl
@[simp] theorem State.raise_cycle (s : State) (e : CommandError) :
    (s.raise e).cycle = s.cycle := rfl
@[simp] theorem State.raise_inputs (s : State) (e : CommandError) :
    (s.raise e).inputs = s.inputs := rfl

@[simp] theorem State.deliver_hi (s : State) (v : Byte) :
    (s.deliver v).hi = s.hi := rfl
@[simp] theorem State.deliver_lo (s : State) (v : Byte) :
    (s.deliver v).lo = s.lo := rfl
@[simp] theorem State.deliver_lastValue (s : State) (v : Byte) :
    (s.deliver v).lastValue = v := rfl
@[simp] theorem State.deliver_rspData (s : State) (v : Byte) :
    (s.deliver v).rspData = v := rfl
@[simp] theorem State.deliver_rspStatus (s : State) (v : Byte) :
    (s.deliver v).rspStatus = Status.ok.code := rfl
@[simp] theorem State.deliver_rspValid (s : State) (v : Byte) :
    (s.deliver v).rspValid = true := rfl
@[simp] theorem State.deliver_inFlight (s : State) (v : Byte) :
    (s.deliver v).inFlight = none := rfl
@[simp] theorem State.deliver_params (s : State) (v : Byte) :
    (s.deliver v).params = s.params := rfl
@[simp] theorem State.deliver_cycle (s : State) (v : Byte) :
    (s.deliver v).cycle = s.cycle := rfl
@[simp] theorem State.deliver_inputs (s : State) (v : Byte) :
    (s.deliver v).inputs = s.inputs := rfl

@[simp] theorem State.applyReset_hi (s : State) :
    (s.applyReset).hi = s.params.defaultSeed.hiByte := rfl
@[simp] theorem State.applyReset_lo (s : State) :
    (s.applyReset).lo = s.params.defaultSeed.loByte := rfl
@[simp] theorem State.applyReset_lastValue (s : State) :
    (s.applyReset).lastValue = 0x00#8 := rfl
@[simp] theorem State.applyReset_rspData (s : State) :
    (s.applyReset).rspData = 0x00#8 := rfl
@[simp] theorem State.applyReset_rspStatus (s : State) :
    (s.applyReset).rspStatus = 0#2 := rfl
@[simp] theorem State.applyReset_rspValid (s : State) :
    (s.applyReset).rspValid = false := rfl
@[simp] theorem State.applyReset_inFlight (s : State) :
    (s.applyReset).inFlight = none := rfl
@[simp] theorem State.applyReset_params (s : State) :
    (s.applyReset).params = s.params := rfl
@[simp] theorem State.applyReset_cycle (s : State) :
    (s.applyReset).cycle = s.cycle := rfl
@[simp] theorem State.applyReset_inputs (s : State) :
    (s.applyReset).inputs = s.inputs := rfl

@[simp] theorem State.holdBusy_hi (s : State) (w : CmdWord) (n : Nat) :
    (s.holdBusy w n).hi = s.hi := rfl
@[simp] theorem State.holdBusy_lo (s : State) (w : CmdWord) (n : Nat) :
    (s.holdBusy w n).lo = s.lo := rfl
@[simp] theorem State.holdBusy_lastValue (s : State) (w : CmdWord) (n : Nat) :
    (s.holdBusy w n).lastValue = s.lastValue := rfl
@[simp] theorem State.holdBusy_rspData (s : State) (w : CmdWord) (n : Nat) :
    (s.holdBusy w n).rspData = s.rspData := rfl
@[simp] theorem State.holdBusy_rspStatus (s : State) (w : CmdWord) (n : Nat) :
    (s.holdBusy w n).rspStatus = s.rspStatus := rfl
@[simp] theorem State.holdBusy_rspValid (s : State) (w : CmdWord) (n : Nat) :
    (s.holdBusy w n).rspValid = false := rfl
@[simp] theorem State.holdBusy_inFlight (s : State) (w : CmdWord) (n : Nat) :
    (s.holdBusy w n).inFlight = some ⟨w, n, Config.freeSequencerWork s.cycle⟩ := rfl
@[simp] theorem State.holdBusy_params (s : State) (w : CmdWord) (n : Nat) :
    (s.holdBusy w n).params = s.params := rfl
@[simp] theorem State.holdBusy_cycle (s : State) (w : CmdWord) (n : Nat) :
    (s.holdBusy w n).cycle = s.cycle := rfl
@[simp] theorem State.holdBusy_inputs (s : State) (w : CmdWord) (n : Nat) :
    (s.holdBusy w n).inputs = s.inputs := rfl

@[simp] theorem State.holdIdle_hi (s : State) :
    (s.holdIdle).hi = s.hi := rfl
@[simp] theorem State.holdIdle_lo (s : State) :
    (s.holdIdle).lo = s.lo := rfl
@[simp] theorem State.holdIdle_lastValue (s : State) :
    (s.holdIdle).lastValue = s.lastValue := rfl
@[simp] theorem State.holdIdle_rspData (s : State) :
    (s.holdIdle).rspData = s.rspData := rfl
@[simp] theorem State.holdIdle_rspStatus (s : State) :
    (s.holdIdle).rspStatus = s.rspStatus := rfl
@[simp] theorem State.holdIdle_rspValid (s : State) :
    (s.holdIdle).rspValid = false := rfl
@[simp] theorem State.holdIdle_inFlight (s : State) :
    (s.holdIdle).inFlight = s.inFlight := rfl
@[simp] theorem State.holdIdle_params (s : State) :
    (s.holdIdle).params = s.params := rfl
@[simp] theorem State.holdIdle_cycle (s : State) :
    (s.holdIdle).cycle = s.cycle := rfl
@[simp] theorem State.holdIdle_inputs (s : State) :
    (s.holdIdle).inputs = s.inputs := rfl

@[simp] theorem State.takeInput_hi (s : State) :
    (s.takeInput).hi = s.hi := rfl
@[simp] theorem State.takeInput_lo (s : State) :
    (s.takeInput).lo = s.lo := rfl
@[simp] theorem State.takeInput_lastValue (s : State) :
    (s.takeInput).lastValue = s.lastValue := rfl
@[simp] theorem State.takeInput_rspData (s : State) :
    (s.takeInput).rspData = s.rspData := rfl
@[simp] theorem State.takeInput_rspStatus (s : State) :
    (s.takeInput).rspStatus = s.rspStatus := rfl
@[simp] theorem State.takeInput_rspValid (s : State) :
    (s.takeInput).rspValid = s.rspValid := rfl
@[simp] theorem State.takeInput_inFlight (s : State) :
    (s.takeInput).inFlight = s.inFlight := rfl
@[simp] theorem State.takeInput_params (s : State) :
    (s.takeInput).params = s.params := rfl
@[simp] theorem State.takeInput_cycle (s : State) :
    (s.takeInput).cycle = s.cycle + 1 := rfl
@[simp] theorem State.takeInput_inputs (s : State) :
    (s.takeInput).inputs = s.inputs.tail := rfl

end Sys2Proof.Machine
end

