-- ==== Sys2Proof/Laws/Ops.lean ====
section
/-! SUPPORT. Laws/Ops.lean: what each shared operation does, once: a byte's bits after one advance, the frame of
repeated advances and of the packing loop, and their agreement with Machine/Sequence.lean. -/
namespace Sys2Proof.Machine

theorem bitAt_getLsbD (x : Byte) (k : Nat) : (bitAt x k).getLsbD 0 = x.getLsbD k := by
  simp [bitAt]

@[simp] theorem bitAt_getElem (x : Byte) (k : Nat) : (bitAt x k)[0] = x.getLsbD k := by
  simp [bitAt]

@[simp] theorem zext8_getElem (b : Bit) : (zext8 b)[0] = b[0] := by
  simp [zext8]

theorem zext8_getLsbD (b : Bit) (i : Nat) : (zext8 b).getLsbD i = (decide (i = 0) && b.getLsbD 0) := by
  rcases i with _ | i
  · simp [zext8]
  · simp [zext8]

/-- The low bits of the new `lo` are the old ones moved down (spec R121). -/
theorem advanceLo_getLsbD_low (x : Byte) {i : Nat} (hi : i < 7) :
    (advanceLo x).getLsbD i = x.getLsbD (i + 1) := by
  have h7 : (i < 7) := hi
  simp [advanceLo, BitVec.getLsbD_or, BitVec.getLsbD_shiftLeft, h7, Nat.add_comm]

/-- The bit that enters `lo` is the XOR of the four taps (spec R120, R121). -/
theorem advanceLo_getLsbD_seven (x : Byte) :
    (advanceLo x).getLsbD 7 = (x.getLsbD 0 ^^ x.getLsbD 2 ^^ x.getLsbD 3 ^^ x.getLsbD 5) := by
  simp [advanceLo, feedback]

theorem advanceHi_getLsbD_low (h x : Byte) {i : Nat} (hi : i < 7) :
    (advanceHi h x).getLsbD i = h.getLsbD (i + 1) := by
  have h7 : (i < 7) := hi
  simp [advanceHi, BitVec.getLsbD_or, BitVec.getLsbD_shiftLeft, h7, Nat.add_comm]

/-- The bit that enters `hi` is the old `lo[0]` (spec R121). -/
theorem advanceHi_getLsbD_seven (h x : Byte) : (advanceHi h x).getLsbD 7 = x.getLsbD 0 := by
  simp [advanceHi, outputBit]

@[simp] theorem loAfter_zero (x : Byte) : loAfter 0 x = x := rfl
theorem loAfter_succ (k : Nat) (x : Byte) : loAfter (k + 1) x = loAfter k (advanceLo x) := rfl
@[simp] theorem hiAfter_zero (h x : Byte) : hiAfter 0 h x = h := rfl
theorem hiAfter_succ (k : Nat) (h x : Byte) :
    hiAfter (k + 1) h x = hiAfter k (advanceHi h x) (advanceLo x) := rfl

theorem loAfter_add (a b : Nat) (x : Byte) : loAfter (a + b) x = loAfter b (loAfter a x) := by
  induction a generalizing x with
  | zero => simp
  | succ a ih => rw [Nat.succ_add, loAfter_succ, loAfter_succ, ih]

theorem hiAfter_add (a b : Nat) (h x : Byte) :
    hiAfter (a + b) h x = hiAfter b (hiAfter a h x) (loAfter a x) := by
  induction a generalizing h x with
  | zero => simp
  | succ a ih => rw [Nat.succ_add, hiAfter_succ, hiAfter_succ, loAfter_succ, ih]

/-- Repeated advances write the register pair and nothing else. -/
theorem State.advanceTimes_eq (n : Nat) (s : State) :
    s.advanceTimes n = s.writeRegister (hiAfter n s.hi s.lo) (loAfter n s.lo) := by
  induction n generalizing s with
  | zero => rfl
  | succ n ih => rw [State.advanceTimes, ih]; rfl

theorem State.advanceTimes_succ (n : Nat) (s : State) :
    s.advanceTimes (n + 1) = s.advance.advanceTimes n := rfl

/-- The packing loop leaves the state that as many advances leave. -/
theorem State.packBits_state (left i : Nat) (r : Byte) (s : State) :
    (State.packBits left i r s).2 = s.advanceTimes left := by
  induction left generalizing i r s with
  | zero => rfl
  | succ left ih => exact ih ..

theorem outputSeq_getLsbD (x : Byte) (t : Nat) : (outputSeq x t).getLsbD 0 = (loAfter t x).getLsbD 0 :=
  bitAt_getLsbD ..

/-- The packed byte: the bits that were there, and each emitted bit at its position (spec R141). -/
theorem State.packBits_byte_getLsbD (left i : Nat) (r : Byte) (s : State) (h : i + left ≤ 8) (j : Nat) :
    (State.packBits left i r s).1.getLsbD j =
      (r.getLsbD j || (decide (i ≤ j ∧ j < i + left) && (outputSeq s.lo (j - i)).getLsbD 0)) := by
  induction left generalizing i r s with
  | zero =>
    have : ¬ (i ≤ j ∧ j < i + 0) := by omega
    simp only [State.packBits, this, decide_false, Bool.false_and, Bool.or_false]
  | succ left ih =>
    have hstep : State.packBits (left + 1) i r s =
      State.packBits left (i + 1) (r ||| (zext8 (outputBit s.lo) <<< i)) s.advance := rfl
    rw [hstep, ih _ _ _ (by omega), BitVec.getLsbD_or, BitVec.getLsbD_shiftLeft, zext8_getLsbD]
    simp only [State.advance_lo, outputSeq_getLsbD]
    rcases Nat.lt_trichotomy j i with hj | hj | hj
    · have h1 : ¬ (i + 1 ≤ j ∧ j < i + 1 + left) := by omega
      have h2 : ¬ (i ≤ j ∧ j < i + (left + 1)) := by omega
      simp only [h1, h2, hj, decide_false, decide_true, Bool.not_true, Bool.false_and, Bool.and_false,
        Bool.or_false]
    · subst hj
      have h1 : ¬ (j + 1 ≤ j ∧ j < j + 1 + left) := by omega
      have h2 : j ≤ j ∧ j < j + (left + 1) := by omega
      have h3 : j < 8 := by omega
      simp only [h1, h2, decide_false, decide_true, Nat.sub_self, loAfter_zero, outputBit, bitAt_getLsbD]
      simp [h3]
    · have h0 : ¬ (j < i) := by omega
      have h3 : j - i ≠ 0 := by omega
      have e : j - i = (j - (i + 1)) + 1 := by omega
      have hiff : (i + 1 ≤ j ∧ j < i + 1 + left) ↔ (i ≤ j ∧ j < i + (left + 1)) := by omega
      simp only [hiff, h3, decide_false, Bool.false_and, Bool.and_false, Bool.or_false]
      rw [e, loAfter_succ]

@[simp] theorem State.applyReset_eq (s : State) :
    s.applyReset = State.resetWith s.params s.cycle s.inputs := rfl

@[simp] theorem Status.code_ne_three (st : Status) : st.code ≠ 3#2 := by cases st <;> decide

end Sys2Proof.Machine
end

