-- ==== Sys2Proof/Laws/Exec.lean ====
section
/-! SUPPORT. Laws/Exec.lean: what every command does, once. A command's effect is a function of the parameters,
`hi`, `lo` and `last_value`; it is written whole, with the response, and nothing else of the state is read or
written. -/
namespace Sys2Proof.Machine

/-- The values a command leaves in the registers it can write. -/
structure Effect where
  hi : Byte
  lo : Byte
  lastValue : Byte
  data : Byte
  status : Status

/-- The state with a command's effect written and the command completed. -/
def State.complete (s : State) (x : Effect) : State :=
  { s with
    hi := x.hi
    lo := x.lo
    lastValue := x.lastValue
    rspData := x.data
    rspStatus := x.status.code
    rspValid := true
    inFlight := none }

@[simp] theorem State.complete_hi (s : State) (x : Effect) : (s.complete x).hi = x.hi := rfl
@[simp] theorem State.complete_lo (s : State) (x : Effect) : (s.complete x).lo = x.lo := rfl
@[simp] theorem State.complete_lastValue (s : State) (x : Effect) :
    (s.complete x).lastValue = x.lastValue := rfl
@[simp] theorem State.complete_rspData (s : State) (x : Effect) : (s.complete x).rspData = x.data := rfl
@[simp] theorem State.complete_rspStatus (s : State) (x : Effect) :
    (s.complete x).rspStatus = x.status.code := rfl
@[simp] theorem State.complete_rspValid (s : State) (x : Effect) : (s.complete x).rspValid = true := rfl
@[simp] theorem State.complete_inFlight (s : State) (x : Effect) : (s.complete x).inFlight = none := rfl
@[simp] theorem State.complete_params (s : State) (x : Effect) : (s.complete x).params = s.params := rfl
@[simp] theorem State.complete_cycle (s : State) (x : Effect) : (s.complete x).cycle = s.cycle := rfl
@[simp] theorem State.complete_inputs (s : State) (x : Effect) : (s.complete x).inputs = s.inputs := rfl

/-- The byte the packing loop makes, from `lo` alone. -/
def packedByte : (left i : Nat) → (r x : Byte) → Byte
  | 0, _, r, _ => r
  | left + 1, i, r, x => packedByte left (i + 1) (r ||| (zext8 (outputBit x) <<< i)) (advanceLo x)

theorem State.packBits_byte (left i : Nat) (r : Byte) (s : State) :
    (State.packBits left i r s).1 = packedByte left i r s.lo := by
  induction left generalizing i r s with
  | zero => rfl
  | succ left ih => exact ih ..

/-- The effect of an error: nothing but the response (spec R160). -/
def errorEffect (e : CommandError) (h x v : Byte) : Effect := ⟨h, x, v, 0x00#8, e.status⟩

/-- The effect of each instruction on the register `h:x` and `last_value` `v`. -/
def effectOf (p : Params) (h x v : Byte) : Instr → Effect
  | .init => ⟨p.defaultSeed.hiByte, p.defaultSeed.loByte, v, 0x00#8, .ok⟩
  | .setSeed hi lo => ⟨hi, lo, v, 0x00#8, .ok⟩
  | .fixSeed =>
    if registerZero h x then ⟨p.fallbackSeed.hiByte, p.fallbackSeed.loByte, v, 0x00#8, .ok⟩
    else ⟨h, x, v, 0x00#8, .ok⟩
  | .advanceBit => ⟨advanceHi h x, advanceLo x, v, zext8 (outputBit x), .ok⟩
  | .advanceBits n => ⟨hiAfter (countOperand n) h x, loAfter (countOperand n) x, v, 0x00#8, .ok⟩
  | .getBit => ⟨advanceHi h x, advanceLo x, zext8 (outputBit x), zext8 (outputBit x), .ok⟩
  | .getBits n =>
    if countInRange (countOperand n) then
      ⟨hiAfter (countOperand n) h x, loAfter (countOperand n) x, packedByte (countOperand n) 0 0x00#8 x,
        packedByte (countOperand n) 0 0x00#8 x, .ok⟩
    else errorEffect .invalidArgument h x v
  | .getByte => ⟨hiAfter 8 h x, loAfter 8 x, x, x, .ok⟩
  | .reserved _ => errorEffect .illegalCommand h x v

/-- ONE LEMMA FOR EVERY COMMAND: `exec` completes from every state, with that effect and no other. -/
theorem exec_eq_effect (i : Instr) (s : State) :
    exec i s = .next (s.complete (effectOf s.params s.hi s.lo s.lastValue i)) := by
  cases i with
  | init => rfl
  | setSeed hi lo => rfl
  | fixSeed =>
    unfold exec execFixSeed effectOf
    by_cases h : registerZero s.hi s.lo = true
    · simp only [h, if_true]; rfl
    · simp only [h]; rfl
  | advanceBit => rfl
  | advanceBits n => simp only [exec, execAdvanceBits, State.advanceTimes_eq]; rfl
  | getBit => rfl
  | getBits n =>
    unfold exec execGetBits effectOf
    by_cases h : countInRange (countOperand n) = true
    · simp only [h, if_true, State.packBits_state, State.packBits_byte, State.advanceTimes_eq]; rfl
    · simp only [h]; rfl
  | getByte => simp only [exec, execGetByte, State.advanceTimes_eq]; rfl
  | reserved any => rfl

/-- The effect of a command word. -/
def wordEffect (p : Params) (h x v : Byte) (w : CmdWord) : Effect :=
  match decode w with
  | .instr i => effectOf p h x v i
  | .illegal _ => errorEffect .illegalCommand h x v

/-- The same for a command word, legal or not. -/
theorem runWord_eq_effect (w : CmdWord) (s : State) :
    runWord w s = .next (s.complete (wordEffect s.params s.hi s.lo s.lastValue w)) := by
  unfold runWord wordEffect
  cases decode w with
  | instr i => exact exec_eq_effect i s
  | illegal e => rfl

/-- A command completes whatever the response registers and the sequencer held: it reads neither. -/
theorem runWord_forgets (w : CmdWord) (s : State) (b : Bool) (q : Option Sequencer) :
    runWord w { s with rspValid := b, inFlight := q } = runWord w s := by
  rw [runWord_eq_effect, runWord_eq_effect]; rfl

end Sys2Proof.Machine
end

