-- ==== Sys2Proof/Laws/Clock.lean ====
section
/-! SUPPORT. Laws/Clock.lean: what an edge, a tick, and a transaction can do, once each. -/
namespace Sys2Proof.Machine

/-- EVERY EDGE IS ONE OF FIVE: a reset, a busy cycle, a completion, an idle cycle, or a refusal of an unstable
word. -/
theorem clockEdge_cases (e : EdgeInput) (s : State) :
    (e.rst = true ∧ clockEdge e s = .next s.applyReset) ∨
    (e.rst = false ∧ ∃ w left, clockEdge e s = .next (s.holdBusy w (left + 1)) ∧
      ((∃ q, s.inFlight = some q ∧ q.command = w ∧ q.cyclesLeft = left + 2) ∨
        (s.inFlight = none ∧ e.cmdValid = true ∧ e.cmdWord = .stable w ∧ latencyOf s.params w = left + 2))) ∨
    (e.rst = false ∧ ∃ w, clockEdge e s = runWord w s ∧
      ((∃ q, s.inFlight = some q ∧ q.command = w ∧ q.cyclesLeft ≤ 1) ∨
        (s.inFlight = none ∧ e.cmdValid = true ∧ e.cmdWord = .stable w ∧ latencyOf s.params w ≤ 1))) ∨
    (e.rst = false ∧ s.inFlight = none ∧ e.cmdValid = false ∧ clockEdge e s = .next s.holdIdle) ∨
    (e.rst = false ∧ s.inFlight = none ∧ e.cmdValid = true ∧ e.cmdWord = .unstable ∧
      clockEdge e s = .refused .unstableCommandWord) := by
  rcases e with ⟨rst, valid, pins⟩
  cases rst with
  | true => exact .inl ⟨rfl, rfl⟩
  | false =>
    rcases hq : s.inFlight with _ | ⟨w, left, work⟩
    · cases valid with
      | false => exact .inr (.inr (.inr (.inl ⟨rfl, rfl, rfl, by simp [clockEdge, hq]⟩)))
      | true =>
        cases pins with
        | unstable => exact .inr (.inr (.inr (.inr ⟨rfl, rfl, rfl, rfl, by simp [clockEdge, hq]⟩)))
        | stable w =>
          rcases hL : latencyOf s.params w with _ | _ | left
          · exact .inr (.inr (.inl ⟨rfl, w, by simp [clockEdge, hq, acceptWord, hL],
              .inr ⟨rfl, rfl, rfl, by omega⟩⟩))
          · exact .inr (.inr (.inl ⟨rfl, w, by simp [clockEdge, hq, acceptWord, hL],
              .inr ⟨rfl, rfl, rfl, by omega⟩⟩))
          · exact .inr (.inl ⟨rfl, w, left, by simp [clockEdge, hq, acceptWord, hL],
              .inr ⟨rfl, rfl, rfl, hL⟩⟩)
    · rcases left with _ | _ | left
      · exact .inr (.inr (.inl ⟨rfl, w, by simp [clockEdge, hq, continueWord],
          .inl ⟨_, rfl, rfl, by simp⟩⟩))
      · exact .inr (.inr (.inl ⟨rfl, w, by simp [clockEdge, hq, continueWord],
          .inl ⟨_, rfl, rfl, by simp⟩⟩))
      · exact .inr (.inl ⟨rfl, w, left, by simp [clockEdge, hq, continueWord], .inl ⟨_, rfl, rfl, rfl⟩⟩)

/-- Where an edge answers a next state, that state is a reset, a busy cycle, a completion or an idle cycle. -/
theorem clockEdge_next {e : EdgeInput} {s t : State} (h : clockEdge e s = .next t) :
    (e.rst = true ∧ t = s.applyReset) ∨
    (e.rst = false ∧ ∃ w left, t = s.holdBusy w (left + 1) ∧
      ((∃ q, s.inFlight = some q ∧ q.command = w ∧ q.cyclesLeft = left + 2) ∨
        (s.inFlight = none ∧ e.cmdValid = true ∧ e.cmdWord = .stable w ∧ latencyOf s.params w = left + 2))) ∨
    (e.rst = false ∧ ∃ w, runWord w s = .next t ∧
      t = s.complete (wordEffect s.params s.hi s.lo s.lastValue w) ∧
      ((∃ q, s.inFlight = some q ∧ q.command = w ∧ q.cyclesLeft ≤ 1) ∨
        (s.inFlight = none ∧ e.cmdValid = true ∧ e.cmdWord = .stable w ∧ latencyOf s.params w ≤ 1))) ∨
    (e.rst = false ∧ s.inFlight = none ∧ e.cmdValid = false ∧ t = s.holdIdle) := by
  rcases clockEdge_cases e s with ⟨hr, he⟩ | ⟨hr, w, left, he, hc⟩ | ⟨hr, w, he, hc⟩ | ⟨hr, hq, hv, he⟩ |
    ⟨hr, hq, hv, hw, he⟩
  · rw [h] at he; cases he; exact .inl ⟨hr, rfl⟩
  · rw [h] at he; cases he; exact .inr (.inl ⟨hr, w, left, rfl, hc⟩)
  · rw [h] at he
    refine .inr (.inr (.inl ⟨hr, w, he.symm, ?_, hc⟩))
    rw [runWord_eq_effect] at he; cases he; rfl
  · rw [h] at he; cases he; exact .inr (.inr (.inr ⟨hr, hq, hv, rfl⟩))
  · rw [h] at he; cases he

/-- No edge is a fault. -/
theorem clockEdge_not_fault (e : EdgeInput) (s : State) (f : Fault) : clockEdge e s ≠ .fault f := by
  intro h
  rcases clockEdge_cases e s with ⟨_, he⟩ | ⟨_, _, _, he, _⟩ | ⟨_, w, he, _⟩ | ⟨_, _, _, he⟩ |
    ⟨_, _, _, _, he⟩ <;> rw [h] at he
  · cases he
  · cases he
  · rw [runWord_eq_effect] at he; cases he
  · cases he
  · cases he

/-- An edge whose word is stable answers a next state. -/
theorem clockEdge_completes (e : EdgeInput) (s : State) (h : e.stableWord = true) :
    ∃ t, clockEdge e s = .next t := by
  rcases clockEdge_cases e s with ⟨_, he⟩ | ⟨_, _, _, he, _⟩ | ⟨_, w, he, _⟩ | ⟨_, _, _, he⟩ |
    ⟨_, _, _, hw, _⟩
  · exact ⟨_, he⟩
  · exact ⟨_, he⟩
  · exact ⟨_, he.trans (runWord_eq_effect w s)⟩
  · exact ⟨_, he⟩
  · simp [EdgeInput.stableWord, hw] at h

/-- An edge takes nothing from the surroundings: the parameters, the cycle's number and the coming inputs. -/
theorem clockEdge_surroundings {e : EdgeInput} {s t : State} (h : clockEdge e s = .next t) :
    SameSurroundings s t := by
  rcases clockEdge_next h with ⟨_, rfl⟩ | ⟨_, w, left, rfl, _⟩ | ⟨_, w, _, rfl, _⟩ | ⟨_, _, _, rfl⟩ <;>
    exact ⟨rfl, rfl, rfl⟩

/-- A tick takes one input and counts one cycle. -/
theorem tick_surroundings {s t : State} (h : tick s = .next t) :
    t.params = s.params ∧ t.cycle = s.cycle + 1 ∧ t.inputs = s.inputs.tail :=
  clockEdge_surroundings h

/-- A busy state ticked without reset: one edge fewer to go, or the completion. -/
theorem tick_busy (s : State) (q : Sequencer) (hq : s.inFlight = some q) (hr : s.nextInput.rst = false) :
    (∀ left, q.cyclesLeft = left + 2 → tick s = .next (s.takeInput.holdBusy q.command (left + 1))) ∧
    (q.cyclesLeft ≤ 1 → tick s = runWord q.command s.takeInput) := by
  have hq' : s.takeInput.inFlight = some q := hq
  constructor
  · intro left hl
    simp [tick, clockEdge, hr, hq, continueWord, hl]
  · intro hl
    rcases q with ⟨w, _ | _ | left, work⟩
    · simp [tick, clockEdge, hr, hq, continueWord]
    · simp [tick, clockEdge, hr, hq, continueWord]
    · simp at hl

/-- Where the coming `n + 1` inputs are without reset, so is the next one. -/
theorem nextInput_rst {s : State} {n : Nat} (h : ∀ e ∈ s.inputs.take (n + 1), e.rst = false) :
    s.nextInput.rst = false := by
  unfold State.nextInput
  cases hi : s.inputs with
  | nil => rfl
  | cons e rest => exact h e (by rw [hi]; simp)

/-- Where the coming `n + 1` inputs are without reset, so are the `n` after the next one. -/
theorem tail_rst {l : List EdgeInput} {n : Nat} (h : ∀ e ∈ l.take (n + 1), e.rst = false) :
    ∀ e ∈ l.tail.take n, e.rst = false := by
  intro e he
  cases l with
  | nil => simp at he
  | cons a rest => exact h e (by simpa using .inr he)

/-- A tick of a busy block passes on to the rest of the transaction. -/
theorem settle_of_tick {s t : State} (n : Nat) (hb : s.busy = true) (h : tick s = .next t) :
    settle (n + 1) s = settle n t := by
  simp [settle, hb, h]

/-- A settled state stays. -/
theorem settle_idle (n : Nat) (s : State) (h : s.inFlight = none) : settle n s = .next s := by
  cases n <;> simp [settle, State.busy, h]

/-- The edges of a command in flight, none of them with reset: it completes, with all of its edges' inputs taken
and their cycles counted. -/
theorem settle_completes (n : Nat) (s : State) (w : CmdWord) (work : SequencerWork)
    (hq : s.inFlight = some ⟨w, n + 1, work⟩) (hr : ∀ e ∈ s.inputs.take (n + 1), e.rst = false) :
    settle (n + 1) s = runWord w { s with inputs := s.inputs.drop (n + 1), cycle := s.cycle + (n + 1) } := by
  have hbusy : s.busy = true := by simp [State.busy, hq]
  induction n generalizing s work with
  | zero =>
    have h := (tick_busy s _ hq (nextInput_rst hr)).2 (by simp)
    rw [runWord_eq_effect] at h
    rw [settle_of_tick 0 hbusy h, runWord_eq_effect, Nat.zero_add, List.drop_one]
    rfl
  | succ n ih =>
    have h := (tick_busy s _ hq (nextInput_rst hr)).1 n rfl
    rw [settle_of_tick (n + 1) hbusy h, ih _ _ rfl (tail_rst hr) rfl, runWord_eq_effect, runWord_eq_effect]
    simp only [State.holdBusy_inputs, State.takeInput_inputs, State.holdBusy_cycle, State.takeInput_cycle,
      List.drop_tail]
    have hc : s.cycle + 1 + (n + 1) = s.cycle + (n + 1 + 1) := by omega
    rw [hc]; rfl

/-- A transaction of a legal sequencer ends idle: every edge of it leaves one edge fewer to go. -/
theorem settle_ends_idle {n : Nat} {s t : State} (h : settle n s = .next t) (hn : s.edgesToGo ≤ n)
    (hl : s.sequencerLegal = true) : t.inFlight = none := by
  induction n generalizing s with
  | zero =>
    have e : s = t := by simpa [settle] using h
    subst e
    rcases hq : s.inFlight with _ | q
    · rfl
    · simp [State.edgesToGo, hq] at hn
      simp [State.sequencerLegal, hq, hn] at hl
  | succ n ih =>
    rcases hq : s.inFlight with _ | q
    · rw [settle_idle _ _ hq] at h; cases h; exact hq
    · have hb : s.busy = true := by simp [State.busy, hq]
      rcases hk : tick s with u | f | r
      · rw [settle_of_tick n hb hk] at h
        rcases clockEdge_next hk with ⟨_, rfl⟩ | ⟨_, w, left, rfl, hc⟩ | ⟨_, w, _, rfl, _⟩ | ⟨_, hq', _, rfl⟩
        · exact ih h (Nat.zero_le n) rfl
        · refine ih h ?_ (by simp [State.sequencerLegal])
          rcases hc with ⟨q', hq', _, hl'⟩ | ⟨hn', _⟩
          · have e : some q = some q' := hq.symm.trans hq'
            cases e
            simp only [State.edgesToGo, hq, hl'] at hn
            simp only [State.edgesToGo, State.holdBusy_inFlight]
            omega
          · have e : s.inFlight = none := hn'
            rw [hq] at e; cases e
        · exact ih h (Nat.zero_le n) rfl
        · have e : s.inFlight = none := hq'
          rw [hq] at e; cases e
      · simp [settle, hb, hk] at h
      · simp [settle, hb, hk] at h

/-- A property that every tick keeps is kept by a transaction. -/
theorem transaction_induction (P : State → Prop) (hP : ∀ s t, P s → tick s = .next t → P t)
    {s t : State} (hs : P s) (h : transaction s = .next t) : P t := by
  have hsettle : ∀ n u, P u → settle n u = .next t → P t := by
    intro n
    induction n with
    | zero => intro u hu h; simp only [settle] at h; cases h; exact hu
    | succ n ih =>
      intro u hu h
      simp only [settle] at h
      split at h
      · split at h
        · next v hv => exact ih v (hP u v hu hv) h
        · cases h
        · cases h
      · cases h; exact hu
  unfold transaction at h
  split at h
  · next u hu => exact hsettle _ u (hP s u hs hu) h
  · cases h
  · cases h

end Sys2Proof.Machine
end

