-- ==== Sys2Proof/Laws/Decode.lean ====
section
/-! SUPPORT. Laws/Decode.lean: the fields of an encoded word. -/
namespace Sys2Proof

@[simp] theorem opField_commandWord (op : BitVec 4) (a b : Byte) : opField (commandWord op a b) = op := by
  apply BitVec.eq_of_getLsbD_eq
  intro i hi
  have h1 : ¬ (20 + i < 8) := by omega
  have h2 : ¬ (20 + i - 8 < 8) := by omega
  have h3 : ¬ (20 + i - 8 - 8 < 4) := by omega
  have h4 : 20 + i - 8 - 8 - 4 = i := by omega
  simp only [opField, commandWord, BitVec.getLsbD_extractLsb', BitVec.getLsbD_append, hi, h1, h2, h3, h4,
    decide_true, Bool.true_and, if_false]

@[simp] theorem rsvField_commandWord (op : BitVec 4) (a b : Byte) : rsvField (commandWord op a b) = 0#4 := by
  apply BitVec.eq_of_getLsbD_eq
  intro i hi
  have h1 : ¬ (16 + i < 8) := by omega
  have h2 : ¬ (16 + i - 8 < 8) := by omega
  have h3 : 16 + i - 8 - 8 < 4 := by omega
  simp only [rsvField, commandWord, BitVec.getLsbD_extractLsb', BitVec.getLsbD_append, h1, h2, h3]
  simp

@[simp] theorem aField_commandWord (op : BitVec 4) (a b : Byte) : aField (commandWord op a b) = a := by
  apply BitVec.eq_of_getLsbD_eq
  intro i hi
  have h1 : ¬ (8 + i < 8) := by omega
  have h2 : 8 + i - 8 < 8 := by omega
  have h4 : 8 + i - 8 = i := by omega
  simp only [aField, commandWord, BitVec.getLsbD_extractLsb', BitVec.getLsbD_append, hi, h1, h4,
    decide_true, Bool.true_and, if_false]
  simp [hi]

@[simp] theorem bField_commandWord (op : BitVec 4) (a b : Byte) : bField (commandWord op a b) = b := by
  apply BitVec.eq_of_getLsbD_eq
  intro i hi
  have h1 : 0 + i < 8 := by omega
  simp only [bField, commandWord, BitVec.getLsbD_extractLsb', BitVec.getLsbD_append, h1, hi]
  simp

/-- A reserved word is its opcode bit and its payload (spec R66). -/
theorem opField_reserved (any : BitVec 23) : 8 ≤ (opField (encode (.reserved any))).toNat := by
  have h : (opField (encode (.reserved any))).msb = true := by
    rw [BitVec.msb_eq_getLsbD_last]
    simp only [opField, encode, BitVec.getLsbD_extractLsb', BitVec.getLsbD_append]
    rfl
  have := BitVec.msb_eq_decide (opField (encode (.reserved any)))
  simp only [h] at this
  simpa using this.symm

@[simp] theorem reservedPayload_encode (any : BitVec 23) : reservedPayload (encode (.reserved any)) = any := by
  apply BitVec.eq_of_getLsbD_eq
  intro i hi
  simp only [reservedPayload, encode, BitVec.getLsbD_extractLsb', BitVec.getLsbD_append, hi, decide_true,
    Bool.true_and, if_true, Nat.zero_add]

/-- A command's word keeps its operand bytes under a mask of its fixed bits, for the formats' three masks. -/
theorem commandWord_and (op : BitVec 4) (a b : Byte) (mOp : BitVec 4) (mRsv : BitVec 4) (mA mB : Byte) :
    commandWord op a b &&& (mOp ++ mRsv ++ mA ++ mB : CmdWord) = commandWord (op &&& mOp) (a &&& mA) (b &&& mB) := by
  apply BitVec.eq_of_getLsbD_eq
  intro i hi
  simp only [commandWord, BitVec.getLsbD_and, BitVec.getLsbD_append]
  split
  · rfl
  · split
    · rfl
    · split
      · simp
      · rfl

end Sys2Proof
end

