-- ==== Sys2Proof/Laws/PerInstr.lean ====
section
/-! SUPPORT. Laws/PerInstr.lean: per instruction, that its encoding is of its row of spec/opcode_table.json, and that
it is a well-formed word exactly when it is one of the eight commands (spec R64, R66, R67). -/
namespace Sys2Proof.Laws.TableRow

/-- The encoding of `i` is of the opcode table's row of `i`, and is a well-formed word exactly when `i` is
well-formed. -/
def Statement (i : Instr) : Prop :=
  (opcodeRow i).holds (encode i) = true ∧ wellFormedWord (encode i) = i.wellFormed

theorem init : Statement .init := by unfold Statement; decide

theorem setSeed (hi lo : Byte) : Statement (.setSeed hi lo) := by
  refine ⟨?_, by simp [wellFormedWord, encode, opFormat, Format.unusedZero, Instr.wellFormed]⟩
  have h := commandWord_and 0x1#4 hi lo 0xF#4 0xF#4 0x00#8 0x00#8
  have m : (0xF#4 ++ 0xF#4 ++ 0x00#8 ++ 0x00#8 : CmdWord) = 0xFF0000#24 := by decide
  rw [m, BitVec.and_zero, BitVec.and_zero] at h
  simp only [OpcodeRow.holds, opcodeRow, encode, h]
  decide

theorem fixSeed : Statement .fixSeed := by unfold Statement; decide

theorem advanceBit : Statement .advanceBit := by unfold Statement; decide

theorem advanceBits (n : Byte) : Statement (.advanceBits n) := by
  refine ⟨?_, by simp [wellFormedWord, encode, opFormat, Format.unusedZero, Instr.wellFormed]⟩
  have h := commandWord_and 0x4#4 0x00#8 n 0xF#4 0xF#4 0xFF#8 0x00#8
  have m : (0xF#4 ++ 0xF#4 ++ 0xFF#8 ++ 0x00#8 : CmdWord) = 0xFFFF00#24 := by decide
  rw [m, BitVec.and_zero] at h
  simp only [OpcodeRow.holds, opcodeRow, encode, h]
  decide

theorem getBit : Statement .getBit := by unfold Statement; decide

theorem getBits (n : Byte) : Statement (.getBits n) := by
  refine ⟨?_, by simp [wellFormedWord, encode, opFormat, Format.unusedZero, Instr.wellFormed]⟩
  have h := commandWord_and 0x6#4 0x00#8 n 0xF#4 0xF#4 0xFF#8 0x00#8
  have m : (0xF#4 ++ 0xF#4 ++ 0xFF#8 ++ 0x00#8 : CmdWord) = 0xFFFF00#24 := by decide
  rw [m, BitVec.and_zero] at h
  simp only [OpcodeRow.holds, opcodeRow, encode, h]
  decide

theorem getByte : Statement .getByte := by unfold Statement; decide

theorem reserved (any : BitVec 23) : Statement (.reserved any) := by
  constructor
  · have e : encode (.reserved any) = (1#1 ++ any : CmdWord) := rfl
    have h : encode (.reserved any) &&& 0x800000#24 = 0x800000#24 := by
      have m : (0x800000#24 : CmdWord) = (1#1 ++ 0#23 : CmdWord) := by decide
      rw [e, m]
      apply BitVec.eq_of_getLsbD_eq
      intro i hi
      simp only [BitVec.getLsbD_and, BitVec.getLsbD_append]
      split <;> simp
    simp only [OpcodeRow.holds, opcodeRow, h]
    decide
  · have h := opField_reserved any
    have hf : opFormat (opField (encode (.reserved any))) = none := by
      revert h
      generalize opField (encode (.reserved any)) = op
      revert op
      decide
    simp only [wellFormedWord, hf, Instr.wellFormed]

end Sys2Proof.Laws.TableRow
end

