-- ==== Sys2Proof/Tests/Slice0.lean ====
section
/-! SUPPORT. Tests/Slice0.lean: tests whose expected results are the spec's own words (30_encoding.md R64) and
vectors (95_test_vectors.md), and for every statement with hypotheses a witness that meets them. -/
namespace Sys2Proof.Tests
open Sys2Proof.Machine

/-! ## Decoding: words written out bit by bit from spec R64 (OP, RSV, A, B) -/

theorem test_decode_init : decode 0b0000_0000_00000000_00000000#24 = .instr .init := by decide
theorem test_decode_set_seed :
    decode 0b0001_0000_10100101_00111100#24 = .instr (.setSeed 0xA5#8 0x3C#8) := by decide
theorem test_decode_fix_seed : decode 0b0010_0000_00000000_00000000#24 = .instr .fixSeed := by decide
theorem test_decode_advance_bit : decode 0b0011_0000_00000000_00000000#24 = .instr .advanceBit := by decide
theorem test_decode_advance_bits :
    decode 0b0100_0000_00000000_11001000#24 = .instr (.advanceBits 0xC8#8) := by decide
theorem test_decode_get_bit : decode 0b0101_0000_00000000_00000000#24 = .instr .getBit := by decide
theorem test_decode_get_bits : decode 0b0110_0000_00000000_00000011#24 = .instr (.getBits 3#8) := by decide
theorem test_decode_get_byte : decode 0b0111_0000_00000000_00000000#24 = .instr .getByte := by decide
theorem test_decode_reserved_first :
    decode 0b1000_0000_00000000_00000000#24 = .instr (.reserved 0#23) := by decide
theorem test_decode_reserved_last :
    decode 0b1111_1111_11111111_11111111#24 = .instr (.reserved 0x7FFFFF#23) := by decide
theorem test_encode_set_seed : encode (.setSeed 0xA5#8 0x3C#8) = 0x10A53C#24 := by decide
theorem test_table_word_get_bits : decodeTableWord 24 0x600003 = some (.getBits 3#8) := by decide

/-- No two rows of the opcode table overlap: on the bits both fix they differ. -/
theorem test_rows_disjoint :
    ([Instr.init, .setSeed 0#8 0#8, .fixSeed, .advanceBit, .advanceBits 0#8, .getBit, .getBits 0#8, .getByte,
      .reserved 0#23].map opcodeRow).Pairwise
      (fun r r' => r.pattern &&& r'.mask ≠ r'.pattern &&& r.mask) := by decide

/-! ## WellFormed: an ill-formed term for each check (the words of 95_test_vectors.md 2.4) -/

theorem test_wellFormed_refuses_reserved_class : Instr.wellFormed (.reserved 0#23) = false := by decide
theorem test_wellFormedWord_refuses_reserved_opcode : wellFormedWord 0x800000#24 = false := by decide
theorem test_wellFormedWord_refuses_rsv : wellFormedWord 0x1F00A5#24 = false := by decide
theorem test_wellFormedWord_refuses_n_with_a : wellFormedWord 0x300100#24 = false := by decide
theorem test_wellFormedWord_refuses_n_with_b : wellFormedWord 0x700080#24 = false := by decide
theorem test_wellFormedWord_refuses_c_with_a : wellFormedWord 0x400100#24 = false := by decide
theorem test_decode_names_rsv : decode 0x6F0000#24 = .illegal .reservedFieldNonzero := by decide
theorem test_decode_names_operand : decode 0x600103#24 = .illegal .unusedOperandNonzero := by decide

/-! ## One step per instruction, from `hi:lo/last`: the vectors of 95_test_vectors.md section 2 -/

/-- An idle state with the given generator registers, all else as after reset. -/
def gen (hi lo last : Byte) : State := { State.reset with hi := hi, lo := lo, lastValue := last }

/-- What a vector shows: `hi`, `lo`, `last_value`, the status code and `rsp_data`. -/
abbrev Shown := Byte × Byte × Byte × BitVec 2 × Byte

def State.shown (s : State) : Shown := (s.hi, s.lo, s.lastValue, s.rspStatus, s.rspData)

def shown : Host.Outcome State Fault Refusal → Option Shown
  | .next s => some (State.shown s)
  | .fault _ => none
  | .refused _ => none

/-- The next state; the given one where there is none. -/
def nextOr (d : State) : Host.Outcome State Fault Refusal → State
  | .next s => s
  | .fault _ => d
  | .refused _ => d

/-- One step that runs the word. -/
def run (w : Nat) (s : State) : Option Shown := shown (step (s.withFetchWord 24 w))

theorem test_init : run 0x000000 (gen 0xAB#8 0xCD#8 0x5A#8) = some (0x00#8, 0x01#8, 0x5A#8, 0#2, 0x00#8) := by
  decide
theorem test_set_seed : run 0x1000A5 (gen 0x12#8 0x34#8 0x5A#8) = some (0x00#8, 0xA5#8, 0x5A#8, 0#2, 0x00#8) := by
  decide
theorem test_set_seed_zero : run 0x100000 (gen 0x12#8 0x34#8 0x5A#8) = some (0#8, 0#8, 0x5A#8, 0#2, 0#8) := by
  decide
theorem test_fix_seed_fires : run 0x200000 (gen 0#8 0#8 0x5A#8) = some (0x00#8, 0x01#8, 0x5A#8, 0#2, 0#8) := by
  decide
theorem test_fix_seed_lo_zero : run 0x200000 (gen 0x12#8 0#8 0x5A#8) = some (0x12#8, 0#8, 0x5A#8, 0#2, 0#8) := by
  decide
theorem test_advance_bit : run 0x300000 (gen 0x00#8 0xA5#8 0x5A#8) = some (0x80#8, 0xD2#8, 0x5A#8, 0#2, 1#8) := by
  decide
theorem test_advance_bit_drops_hi0 :
    run 0x300000 (gen 0xAB#8 0xCD#8 0x5A#8) = some (0xD5#8, 0xE6#8, 0x5A#8, 0#2, 1#8) := by decide
theorem test_advance_bits_sixteen :
    run 0x400010 (gen 0x00#8 0x01#8 0x5A#8) = some (0x29#8, 0xFF#8, 0x5A#8, 0#2, 0#8) := by decide
theorem test_advance_bits_zero :
    run 0x400000 (gen 0x00#8 0x01#8 0x5A#8) = some (0x00#8, 0x01#8, 0x5A#8, 0#2, 0#8) := by decide
theorem test_get_bit : run 0x500000 (gen 0x3C#8 0x02#8 0x5A#8) = some (0x1E#8, 0x01#8, 0x00#8, 0#2, 0#8) := by
  decide
theorem test_get_bits_three :
    run 0x600003 (gen 0x7F#8 0x5E#8 0x5A#8) = some (0xCF#8, 0x0B#8, 0x06#8, 0#2, 6#8) := by decide
theorem test_get_bits_nine :
    run 0x600009 (gen 0x00#8 0xA5#8 0x5A#8) = some (0x00#8, 0xA5#8, 0x5A#8, 1#2, 0#8) := by decide
theorem test_get_byte : run 0x700000 (gen 0xFF#8 0xFF#8 0x5A#8) = some (0xFF#8, 0x18#8, 0xFF#8, 0#2, 0xFF#8) := by
  decide
theorem test_reserved : run 0xF00000 (gen 0x12#8 0x34#8 0x5A#8) = some (0x12#8, 0x34#8, 0x5A#8, 2#2, 0#8) := by
  decide
/-- ILLEGAL_COMMAND beats INVALID_ARGUMENT (spec R165). -/
theorem test_illegal_beats_invalid :
    run 0x600100 (gen 0x12#8 0x34#8 0x5A#8) = some (0x12#8, 0x34#8, 0x5A#8, 2#2, 0#8) := by decide

/-! ## The clock: `get_byte` from reset, default `LAT` 8 (spec R197, R199) -/

/-- `get_byte` presented to the block after reset. -/
def fetching : State := State.reset.withFetchWord 24 0x700000

/-- The block after the edge that accepts it. -/
def inFlight : State := nextOr State.reset (tick fetching)

theorem test_busy_after_acceptance :
    (inFlight.cmdReady, inFlight.rspValid, inFlight.edgesToGo, inFlight.lo) = (false, false, 7, 0x01#8) := by decide
theorem test_completion_at_eighth_edge :
    shown (ticks 8 fetching) = some (0x01#8, 0x29#8, 0x01#8, 0#2, 0x01#8) := by decide
theorem test_pulse_at_eighth_edge :
    ((nextOr State.reset (ticks 7 fetching)).busy, (nextOr State.reset (ticks 8 fetching)).rspValid,
      (nextOr State.reset (ticks 9 fetching)).rspValid) = (true, true, false) := by decide
theorem test_reset_in_flight :
    shown (clockEdge ⟨true, true, .unstable⟩ inFlight) = some (0x00#8, 0x01#8, 0x00#8, 0#2, 0x00#8) := by decide
theorem test_unstable_word_is_refused :
    clockEdge ⟨false, true, .unstable⟩ State.reset = .refused .unstableCommandWord := by rfl
theorem test_status_three_is_stuck :
    ({ State.reset with rspStatus := 3#2 } : State).readStatus = .fault .reservedStatus := by rfl

/-! ## The assembler (spec R71, R73) -/

/-- `seed_runtime 0xA5, 12 ; x` -/
theorem test_assemble_seed_runtime :
    assemble ['s', 'e', 'e', 'd', '_', 'r', 'u', 'n', 't', 'i', 'm', 'e', ' ', '0', 'x', 'A', '5', ',', ' ', '1',
      '2', ' ', ';', ' ', 'x'] = .words [0x10A50C#24, 0x200000#24] := by decide
/-- `init`, an empty line, `.word 0x800000` -/
theorem test_assemble_lines :
    assemble ['i', 'n', 'i', 't', '\n', '\n', '.', 'w', 'o', 'r', 'd', ' ', '0', 'x', '8', '0', '0', '0', '0',
      '0'] = .words [0x000000#24, 0x800000#24] := by decide
/-- `get_bits 256` -/
theorem test_assemble_refuses_256 :
    assemble ['g', 'e', 't', '_', 'b', 'i', 't', 's', ' ', '2', '5', '6'] = .refused .operandOutOfRange := by decide

/-! ## Witnesses: concrete values that meet the hypotheses of the statements, clause by clause -/

theorem witness_EveryWordHasAtMostOneMeaning : decode 0x10A53C#24 = .instr (.setSeed 0xA5#8 0x3C#8) := by decide

theorem witness_ReservedOpcodesRaiseIllegalCommand :
    (0x800000#24).getLsbD 23 = true ∧ (0xFFFFFF#24).getLsbD 23 = true := by decide

/-- A word for each clause of `bad`, and one legal word. -/
theorem witness_FieldChecksDecideWhichWordsAreIllegal :
    ((opField 0x1F00A5#24).toNat < 8 ∧ rsvField 0x1F00A5#24 ≠ 0#4) ∧
    ((opField 0x700080#24).toNat < 8 ∧ opField 0x700080#24 = 7#4 ∧ bField 0x700080#24 ≠ 0#8) ∧
    ((opField 0x000100#24).toNat < 8 ∧ opField 0x000100#24 = 0#4 ∧ aField 0x000100#24 ≠ 0#8) ∧
    ((opField 0x4001FF#24).toNat < 8 ∧ opField 0x4001FF#24 = 4#4 ∧ aField 0x4001FF#24 ≠ 0#8) ∧
    ((opField 0x10FFFF#24).toNat < 8 ∧ wellFormedWord 0x10FFFF#24 = true) := by decide

/-- Counts at the bounds: 0 and 9 are out of range for `get_bits`, 1 and 8 in range. -/
theorem witness_CountWordsAreWellFormedForEveryCount :
    (0#8 = 0#8 ∨ 9 ≤ (0#8).toNat) ∧ (9#8 = 0#8 ∨ 9 ≤ (9#8).toNat) ∧ ¬(8#8 = 0#8 ∨ 9 ≤ (8#8).toNat) ∧
    ¬(1#8 = 0#8 ∨ 9 ≤ (1#8).toNat) := by decide

/-- For each command, a word of its opcode that is another word. -/
theorem witness_other_words_of_each_opcode :
    (opField 0x000001#24 = 0#4 ∧ 0x000001#24 ≠ 0x000000#24) ∧
    (opField 0x1F00A5#24 = 1#4 ∧ rsvField 0x1F00A5#24 ≠ 0#4) ∧
    (opField 0x200001#24 = 2#4 ∧ 0x200001#24 ≠ 0x200000#24) ∧
    (opField 0x300100#24 = 3#4 ∧ 0x300100#24 ≠ 0x300000#24) ∧
    (opField 0x4100FF#24 = 4#4 ∧ rsvField 0x4100FF#24 ≠ 0#4) ∧
    (opField 0x400100#24 = 4#4 ∧ aField 0x400100#24 ≠ 0#8) ∧
    (opField 0x500001#24 = 5#4 ∧ 0x500001#24 ≠ 0x500000#24) ∧
    (opField 0x6F0000#24 = 6#4 ∧ rsvField 0x6F0000#24 ≠ 0#4) ∧
    (opField 0x600103#24 = 6#4 ∧ aField 0x600103#24 ≠ 0#8) ∧
    (opField 0x700080#24 = 7#4 ∧ 0x700080#24 ≠ 0x700000#24) := by decide

theorem witness_InitLoadsTheDefaultSeed : State.reset.params.wellFormed = true := by decide

theorem witness_InitAndResetLoadTheSameSeed : (⟨true, false, .stable 0#24⟩ : EdgeInput).rst = true := rfl

theorem witness_SeedWithZeroLowByteDrains : (0x12#8 : Byte) ≠ 0x00#8 := by decide

theorem witness_FixSeedReplacesOnlyTheAllZeroState :
    ((gen 0#8 0#8 0#8).hi = 0x00#8 ∧ (gen 0#8 0#8 0#8).lo = 0x00#8) ∧
    ¬((gen 0x12#8 0#8 0#8).hi = 0x00#8 ∧ (gen 0x12#8 0#8 0#8).lo = 0x00#8) := by decide

theorem witness_FixSeedEstablishesANonzeroRegister :
    (gen 0x12#8 0#8 0#8).params.wellFormed = true ∧ (gen 0x12#8 0#8 0#8).hi ++ (gen 0x12#8 0#8 0#8).lo ≠ 0#16 ∧
    (gen 0#8 0#8 0#8).hi ++ (gen 0#8 0#8 0#8).lo = 0#16 := by decide

theorem witness_SeedCommandsAreIdempotentAndAdvancesAreNot :
    (1 ≤ (1#8).toNat ∧ (1#8).toNat ≤ 254) ∧ (1 ≤ (254#8).toNat ∧ (254#8).toNat ≤ 254) ∧
    (1 ≤ (8#8).toNat ∧ (8#8).toNat ≤ 8) ∧ (gen 0#8 1#8 0#8).lo ≠ 0#8 ∧
    ((gen 0#8 0#8 0#8).hi = 0#8 ∧ (gen 0#8 0#8 0#8).lo = 0#8) := by decide

theorem witness_AdvanceBitReturnsTheOutputBit : (gen 0x12#8 0#8 0#8).lo = 0x00#8 := rfl

set_option maxRecDepth 4000 in
/-- `01:29` is cyclic (spec R129): 255 advances return to it. -/
theorem witness_AdvanceBitsAdvancesExactlyNTimes :
    Cyclic (gen 0x01#8 0x29#8 0#8).hi (gen 0x01#8 0x29#8 0#8).lo ∧
    ((gen 0#8 0#8 0#8).hi = 0#8 ∧ (gen 0#8 0#8 0#8).lo = 0#8) :=
  ⟨⟨255, by decide, by decide, by decide⟩, rfl, rfl⟩

theorem witness_HiNeverAffectsTheOutputAndRecordsIt : (gen 0x12#8 0x34#8 0#8).lo = (gen 0xFF#8 0x34#8 0#8).lo := rfl

theorem witness_HiNeverReachesAResponse : Instr.getByte ≠ .fixSeed := by decide

theorem witness_OutputSequenceObeysTheRecurrence : (0 ≤ 7) ∧ (7 ≤ 7) := by decide

theorem witness_RegisterAfterKAdvances : (0 ≤ 8) ∧ (8 ≤ 8) := by decide

theorem witness_MapOnLoIsOneCycleOfLength255 :
    (0x01#8 : Byte) ≠ 0x00#8 ∧ (0xFF#8 : Byte) ≠ 0x00#8 ∧ (0 < 1 ∧ 1 < 255) ∧ (0 < 254 ∧ 254 < 255) := by decide

theorem witness_ZeroLowByteIsTheOnlyTrap :
    ((gen 0#8 0#8 0#8).hi = 0#8 ∧ (gen 0#8 0#8 0#8).lo = 0#8) ∧ (gen 0x12#8 0#8 0#8).lo = 0#8 ∧
    (gen 0#8 0x80#8 0#8).lo ≠ 0#8 := by decide

/-- Counts at the bounds of the range of `get_bits`, inside and outside it. -/
theorem witness_GetBitsPacksTheProducedBits :
    (1 ≤ (1#8).toNat ∧ (1#8).toNat ≤ 8) ∧ (1 ≤ (8#8).toNat ∧ (8#8).toNat ≤ 8) ∧
    ((0#8).toNat < 1 ∨ 8 < (0#8).toNat) ∧ ((9#8).toNat < 1 ∨ 8 < (9#8).toNat) := by decide

theorem witness_GetByteDeliversTheSnapshotOfLo : (gen 0x12#8 0#8 0#8).lo = 0x00#8 := rfl

theorem witness_GetBitsResultIsTheLowBitsOfLo :
    (1 ≤ (1#8).toNat ∧ (1#8).toNat ≤ 8) ∧ (1 ≤ (8#8).toNat ∧ (8#8).toNat ≤ 8) := by decide

theorem witness_SecondGetByteReturnsLoAfterEightAdvances :
    (gen 0#8 0xA5#8 0#8).hi = 0x00#8 ∧ (gen 0#8 0xA5#8 0#8).lo = 0xA5#8 := ⟨rfl, rfl⟩

/-- A word for each way to write `last_value`, and three that do not. -/
theorem witness_OnlySuccessfulOutputsWriteLastValue :
    decode 0x500000#24 = .instr .getBit ∧ decode 0x700000#24 = .instr .getByte ∧
    decode 0x600008#24 = .instr (.getBits 8#8) ∧ decode 0x600009#24 = .instr (.getBits 9#8) ∧
    decode 0x300000#24 = .instr .advanceBit ∧ (∃ e, decode 0x500001#24 = .illegal e) :=
  ⟨by decide, by decide, by decide, by decide, by decide, .unusedOperandNonzero, by decide⟩

theorem witness_ErrorsWriteOnlyTheResponse :
    wellFormedWord 0x800000#24 = false ∧ wellFormedWord 0x000001#24 = false ∧
    (decode 0x600000#24 = .instr (.getBits 0#8) ∧ ¬(1 ≤ (0#8).toNat ∧ (0#8).toNat ≤ 8)) := by decide

theorem witness_InvalidArgumentIsRaisedByGetBitsAlone :
    (nextOr State.reset (runWord 0x600000#24 State.reset)).rspStatus = 1#2 := by decide

theorem witness_DegenerateCasesAreNotErrors :
    (gen 0x12#8 0#8 0#8).lo = 0#8 ∧ (1 ≤ (8#8).toNat ∧ (8#8).toNat ≤ 8) ∧
    ¬((gen 0x12#8 0#8 0#8).hi = 0x00#8 ∧ (gen 0x12#8 0#8 0#8).lo = 0x00#8) := by decide

theorem witness_FirstFailingCheckDecidesTheStatus : (⟨true, true, .unstable⟩ : EdgeInput).rst = true := rfl

theorem witness_StatusPortReadsALegalCode :
    State.reset.Inv ∧ ({ State.reset with rspStatus := 3#2 } : State).rspStatus = 3#2 :=
  ⟨⟨by decide, by decide, by decide⟩, rfl⟩

/-- A busy block and an edge with reset. -/
theorem witness_ResetEdgeRestoresEveryRegister :
    inFlight.busy = true ∧ (⟨true, true, .unstable⟩ : EdgeInput).rst = true := ⟨by decide, rfl⟩

/-- Ready edges for a word of one cycle and a word of several; two edges with reset; a busy block; an idle one
without `cmd_valid`. -/
theorem witness_CommandsAreAcceptedOnlyAtReadyEdges :
    State.reset.cmdReady = true ∧ latencyOf State.reset.params 0x300000#24 ≤ 1 ∧
    2 ≤ latencyOf State.reset.params 0x600002#24 ∧
    (⟨true, true, .unstable⟩ : EdgeInput).rst = true ∧ (⟨true, false, .stable 0#24⟩ : EdgeInput).rst = true ∧
    inFlight.cmdReady = false ∧
    EdgeInput.quiet.cmdValid = false ∧ EdgeInput.quiet.rst = false := by decide

theorem witness_OnlyAnUnstableAcceptedWordIsRefused :
    ∃ r, clockEdge ⟨false, true, .unstable⟩ State.reset = .refused r := ⟨_, rfl⟩

/-- `get_byte` from reset, eight cycles: the first and the last busy cycle; and two next edges that complete nothing,
a quiet one and one that accepts a word of two cycles. -/
theorem witness_AcceptedCommandCompletesAfterItsLatency :
    fetching.inFlight = none ∧ fetching.inputs = .present 0x700000#24 :: [] ∧
    latencyOf fetching.params 0x700000#24 = 8 ∧ (∀ e ∈ ([] : List EdgeInput).take 7, e.rst = false) ∧
    (1 ≤ 1 ∧ 1 < 8) ∧ (1 ≤ 7 ∧ 7 < 8) ∧
    (∃ v, clockEdge .quiet (nextOr State.reset (ticks 8 fetching)) = .next v ∧ EdgeInput.quiet.cmdValid = false) ∧
    ∃ v, clockEdge (.present 0x600002#24) (nextOr State.reset (ticks 8 fetching)) = .next v ∧
      ¬latencyOf (nextOr State.reset (ticks 8 fetching)).params 0x600002#24 ≤ 1 :=
  ⟨rfl, rfl, by decide, by simp, by decide, by decide, ⟨_, rfl, rfl⟩, ⟨_, rfl, by decide⟩⟩

/-- A completion with `LAT = 1`, and one at the last edge of a command in flight. -/
theorem witness_ResponsePulseMeansACompletion :
    (∃ t, clockEdge (.present 0x300000#24) State.reset = .next t ∧ t.rspValid = true) ∧
    ∃ t, clockEdge .quiet (nextOr State.reset (ticks 7 fetching)) = .next t ∧ t.rspValid = true :=
  ⟨⟨_, rfl, by decide⟩, ⟨_, rfl, by decide⟩⟩

theorem witness_RegistersHoldBetweenCompletions :
    ∃ t, clockEdge .quiet inFlight = .next t ∧ EdgeInput.quiet.rst = false ∧ t.rspValid = false :=
  ⟨_, rfl, rfl, by decide⟩

theorem witness_IdleBlockHoldsItsState :
    (gen 1#8 2#8 3#8).inFlight = none ∧ ∀ e ∈ (gen 1#8 2#8 3#8).inputs, e.rst = false ∧ e.cmdValid = false :=
  ⟨rfl, by simp [gen, State.reset, State.resetWith]⟩

/-- `get_byte`, eight cycles: a reset at the first and at the last edge that can still abort it. -/
theorem witness_ResetInFlightAbortsTheCommand :
    (∀ b ∈ ([] : List EdgeInput), b.rst = false) ∧ ([] : List EdgeInput).length + 1 < latencyOf .specDefault 0x700000#24 ∧
    (∀ b ∈ List.replicate 6 EdgeInput.quiet, b.rst = false) ∧
    (List.replicate 6 EdgeInput.quiet).length + 1 < latencyOf .specDefault 0x700000#24 := by decide

theorem test_reset_at_the_last_edge_aborts :
    shown (step { gen 0xAB#8 0xCD#8 0x5A#8 with
      inputs := .present 0x700000#24 :: (List.replicate 6 EdgeInput.quiet ++ [⟨true, false, .unstable⟩]) }) =
      some (0x00#8, 0x01#8, 0x00#8, 0#2, 0x00#8) := by decide

theorem witness_ObservationPortsShowTheRegistersWhileIdle : State.reset.cmdReady = true := by decide

theorem witness_DefaultLatencyTable :
    Params.specDefault.latencyOverrides = [] ∧ wellFormedWord 0x800000#24 = false := by decide

/-- Parameters other than the default ones: a slow `init`. -/
theorem witness_LatencyIsAtLeastOneCycle :
    (⟨0x1234#16, 0xFF01#16, [(0x000000#24, 5)]⟩ : Params).wellFormed = true ∧
    latencyOf ⟨0x1234#16, 0xFF01#16, [(0x000000#24, 5)]⟩ 0x000000#24 = 5 := by decide

theorem witness_StepRunsTheDecodedInstruction :
    fetching.inFlight = none ∧ fetching.inputs = .present 0x700000#24 :: [] ∧
    decode 0x700000#24 = .instr .getByte ∧ decode 0x700080#24 = .illegal .unusedOperandNonzero ∧
    decodeTableWord 24 0x600003 = some (.getBits 3#8) := ⟨rfl, rfl, by decide, by decide, by decide⟩

/-- A step, and a tick and an edge of a block with a command in flight. -/
theorem witness_StepKeepsTheInvariant :
    (fetching.Inv ∧ ∃ t, step fetching = .next t) ∧ inFlight.Inv ∧ inFlight.busy = true ∧
    (∃ t, tick inFlight = .next t) ∧ ∃ t, clockEdge .quiet inFlight = .next t :=
  ⟨⟨⟨by decide, by decide, by decide⟩, _, rfl⟩, ⟨by decide, by decide, by decide⟩, by decide, ⟨_, rfl⟩, ⟨_, rfl⟩⟩

theorem witness_StepCompletesWhileWordsAreStable : ∀ e ∈ fetching.inputs, e.stableWord = true := by decide

theorem witness_StepKeepsTheGeneratorLive :
    fetching.Inv ∧ fetching.inFlight = none ∧ fetching.live = true ∧ (∀ e ∈ fetching.inputs, e.keepsLive = true) ∧
    ∃ t, step fetching = .next t :=
  ⟨⟨by decide, by decide, by decide⟩, rfl, by decide, by decide, _, rfl⟩

/-- A host that leaves `set_seed 0x12, 0x00` on `cmd_word` without presenting it, or under reset, keeps the generator
live; one that presents it does not. -/
theorem test_keepsLive_restricts_presented_words :
    (⟨false, false, .stable 0x101200#24⟩ : EdgeInput).keepsLive = true ∧
    (⟨true, true, .stable 0x101200#24⟩ : EdgeInput).keepsLive = true ∧
    (EdgeInput.present 0x101200#24).keepsLive = false := by decide

/-- The statements about a host's list of words: an idle block that meets the invariant. -/
theorem witness_ScheduledCommandsTakeEffectInOrder : State.reset.Inv ∧ State.reset.inFlight = none :=
  ⟨⟨by decide, by decide, by decide⟩, rfl⟩

/-- Operands past the range, `.word` at its bound, the two spellings of 165 (spec R71), and two lines. -/
theorem witness_AssemblerEncodesOrRefusesEveryOperand :
    (255 < 256 ∨ 255 < 0) ∧ 0xFFFFFF ≤ 0xFFFFFF ∧ 0xFFFFFF < 0x1000000 ∧
    ['1', '6', '5'] ∈ numberTexts 165 ∧ ['0', 'x', 'a', '5'] ∈ numberTexts 165 ∧
    '\n' ∉ AsmOp.init.spelling ∧ assembleLine AsmOp.init.spelling = .words [0x000000#24] ∧
    assemble AsmOp.getByte.spelling = .words [0x700000#24] := by decide

end Sys2Proof.Tests
end

/-! # Scope: latency, the step, and what latency does not change (spec 00_scope.md; O49, O50, O58) -/

section
/-! ## A latency is at least one cycle (spec R10, R199) -/
namespace Sys2Proof.Machine

theorem defaultInstrLatency_pos (i : Instr) : 1 ≤ defaultInstrLatency i := by
  cases i with
  | advanceBits n => exact Nat.le_max_left ..
  | getBits n =>
    simp only [defaultInstrLatency, countInRange, Bool.and_eq_true, decide_eq_true_eq]
    split <;> omega
  | _ => simp [defaultInstrLatency]

theorem defaultLatency_pos (w : CmdWord) : 1 ≤ defaultLatency w := by
  unfold defaultLatency
  cases decode w with
  | instr i => exact defaultInstrLatency_pos i
  | illegal e => exact Nat.le_refl 1

/-- A latency is that of an entry of the overrides, or the default of spec R199 (log 2). -/
theorem one_le_latencyOf (p : Params) (w : CmdWord) (hp : ∀ entry ∈ p.latencyOverrides, 1 ≤ entry.2) :
    1 ≤ latencyOf p w := by
  unfold latencyOf
  cases h : p.latencyOverrides.lookup w with
  | none => exact defaultLatency_pos w
  | some cycles =>
    obtain ⟨before, after, hsplit, -⟩ := List.lookup_eq_some_iff.1 h
    exact hp (w, cycles) (by simp [hsplit])

/-- Settles O49: an override is at least one cycle by the parameters' constraint, and so is every default. -/
theorem latencyIsAtLeastOneCycle : Obligations.LatencyIsAtLeastOneCycle := by
  intro p w hp
  simp only [Params.wellFormed, Bool.and_eq_true, List.all_eq_true, decide_eq_true_eq] at hp
  obtain ⟨-, hoverrides⟩ := hp
  exact one_le_latencyOf p w hoverrides

end Sys2Proof.Machine
end

section
/-! ## One step of a block that is presented a word (spec R16, R196, R197) -/
namespace Sys2Proof.Machine

theorem acceptWord_of_latency_le_one {w : CmdWord} {s : State} (h : latencyOf s.params w ≤ 1) :
    acceptWord w s = runWord w s := by
  unfold acceptWord
  split
  · omega
  · rfl

theorem acceptWord_of_latency {w : CmdWord} {s : State} {left : Nat} (h : latencyOf s.params w = left + 2) :
    acceptWord w s = .next (s.holdBusy w (left + 1)) := by
  simp [acceptWord, h]

theorem tick_present {s : State} {w : CmdWord} {rest : List EdgeInput} (hq : s.inFlight = none)
    (hi : s.inputs = .present w :: rest) : tick s = acceptWord w s.takeInput := by
  simp [tick, State.nextInput, hi, clockEdge, EdgeInput.present, hq]

theorem step_of_tick {s t : State} (h : tick s = .next t) : step s = settle t.edgesToGo t := by
  simp [step, transaction, h]

/-- The state at which a word of latency `cycles` takes effect: the inputs of its window are taken, `rest` being
what follows its first edge, and its cycles are counted. -/
def State.afterWindow (s : State) (cycles : Nat) (rest : List EdgeInput) : State :=
  { s with inputs := rest.drop (cycles - 1), cycle := s.cycle + max 1 cycles }

/-- ONE STEP IS ONE COMMAND (spec R16): with no reset in the word's window, the step of an idle block presented `w`
is the effect of `w` past that window. -/
theorem step_present {s : State} {w : CmdWord} {rest : List EdgeInput} (hq : s.inFlight = none)
    (hi : s.inputs = .present w :: rest) (hr : ∀ e ∈ rest.take (latencyOf s.params w - 1), e.rst = false) :
    step s = runWord w (s.afterWindow (latencyOf s.params w) rest) := by
  have htick := tick_present hq hi
  have htail : s.takeInput.inputs = rest := by simp [hi]
  rcases Nat.lt_or_ge 1 (latencyOf s.params w) with hlong | hshort
  · obtain ⟨left, hL⟩ : ∃ left, latencyOf s.params w = left + 2 := ⟨_, (Nat.sub_add_cancel hlong).symm⟩
    rw [acceptWord_of_latency (s := s.takeInput) hL] at htick
    have hwindow : ∀ e ∈ s.takeInput.inputs.take (left + 1), e.rst = false := by
      rw [htail]; rwa [hL] at hr
    have hcycle : s.cycle + 1 + (left + 1) = s.cycle + max 1 (left + 2) := by omega
    rw [step_of_tick htick, hL]
    refine (settle_completes left (s.takeInput.holdBusy w (left + 1)) w _ rfl hwindow).trans ?_
    simp only [State.holdBusy_inputs, State.holdBusy_cycle, htail, State.takeInput_cycle, hcycle, runWord_eq_effect]
    rfl
  · rw [acceptWord_of_latency_le_one (s := s.takeInput) hshort, runWord_eq_effect] at htick
    have hdrop : rest.drop (latencyOf s.params w - 1) = s.takeInput.inputs := by
      rw [htail, Nat.sub_eq_zero_of_le hshort, List.drop_zero]
    have hcycle : s.cycle + max 1 (latencyOf s.params w) = s.takeInput.cycle := by
      rw [Nat.max_eq_left hshort, State.takeInput_cycle]
    rw [step_of_tick htick, settle_idle _ _ rfl, State.afterWindow, hdrop, hcycle, runWord_eq_effect]
    rfl

theorem runWord_of_decode_instr {w : CmdWord} {i : Instr} (h : decode w = .instr i) (s : State) :
    runWord w s = exec i s := by
  simp [runWord, h]

theorem runWord_of_decode_illegal {w : CmdWord} {d : DecodeError} (h : decode w = .illegal d) (s : State) :
    runWord w s = .next (s.raise .illegalCommand) := by
  simp [runWord, h, raiseIllegalWord]

theorem decode_of_decodeTableWord {nbits w : Nat} {i : Instr} (h : decodeTableWord nbits w = some i) :
    decode (tableWord nbits w) = .instr i := by
  unfold decodeTableWord at h
  split at h
  · next j hj => cases h; exact hj
  · cases h

/-- Settles O50: `step_present`, with `runWord` taken apart by what the decoder answers. -/
theorem stepRunsTheDecodedInstruction : Obligations.StepRunsTheDecodedInstruction := by
  constructor
  · intro s w rest hq hi hr
    have hstep := step_present hq hi hr
    exact ⟨fun i h => hstep.trans (runWord_of_decode_instr h _),
      fun d h => hstep.trans (runWord_of_decode_illegal h _)⟩
  · intro s nbits w i h
    have hstep := step_present (s := s.withFetchWord nbits w) (w := tableWord nbits w) (rest := []) rfl rfl (by simp)
    rw [hstep, runWord_of_decode_instr (decode_of_decodeTableWord h), State.afterWindow, List.drop_nil]
    rfl

end Sys2Proof.Machine
end

section
/-! ## A host's words at their own pace, and another `LAT` (spec R175, R206, R208) -/
namespace Sys2Proof.Machine

/-- The host of spec R175 is quiet for the rest of a word's window, so the step is that word's effect with the
window's inputs taken. -/
theorem step_scheduled {s : State} {w : CmdWord} {rest : List EdgeInput} (hq : s.inFlight = none)
    (hi : s.inputs = .present w :: (List.replicate (latencyOf s.params w - 1) .quiet ++ rest)) :
    step s = runWord w { s with inputs := rest, cycle := s.cycle + max 1 (latencyOf s.params w) } := by
  have hlen : (List.replicate (latencyOf s.params w - 1) EdgeInput.quiet).length = latencyOf s.params w - 1 :=
    List.length_replicate
  have hquiet : ∀ e ∈ (List.replicate (latencyOf s.params w - 1) EdgeInput.quiet ++ rest).take
      (latencyOf s.params w - 1), e.rst = false := by
    intro e he
    rw [List.take_left' hlen] at he
    rw [List.eq_of_mem_replicate he]
    rfl
  rw [step_present hq hi hquiet, State.afterWindow, List.drop_left' hlen]

/-- THE CLOCKED BLOCK REFINES THE WORDS (spec R45, R206): a block whose host presents `ws`, each as soon as it is
ready, is after as many steps where the words as atomic transitions lead, but for the cycle's number and the inputs
still to come. -/
theorem steps_hostSchedule (ws : List CmdWord) (s : State) (cycle : Nat) (rest : List EdgeInput)
    (hq : s.inFlight = none) : ∃ t cycle', runWords ws s = .next t ∧
      steps ws.length { s with cycle := cycle, inputs := hostSchedule s.params ws ++ rest } =
        .next { t with cycle := cycle', inputs := rest } := by
  induction ws generalizing s cycle with
  | nil => exact ⟨s, cycle, rfl, rfl⟩
  | cons w ws ih =>
    have hrun := runWord_eq_effect w s
    have hstep := step_scheduled
      (s := { s with cycle := cycle, inputs := hostSchedule s.params (w :: ws) ++ rest })
      (rest := hostSchedule s.params ws ++ rest) (w := w) hq (by simp [hostSchedule])
    rw [runWord_eq_effect] at hstep
    obtain ⟨t, cycle', ht, hu⟩ := ih (s.complete (wordEffect s.params s.hi s.lo s.lastValue w))
      (cycle + max 1 (latencyOf s.params w)) rfl
    refine ⟨t, cycle', ?_, ?_⟩
    · simp only [runWords, hrun, ht]
    · simp only [List.length_cons, steps, hstep]
      exact hu

/-- The block with another `LAT`. -/
def State.withLatency (s : State) (lat : List (CmdWord × Nat)) : State :=
  { s with params := { s.params with latencyOverrides := lat } }

/-- The effect of a word reads the two seeds of the parameters and not `LAT`. -/
theorem wordEffect_withLatency (p : Params) (lat : List (CmdWord × Nat)) (h x v : Byte) (w : CmdWord) :
    wordEffect { p with latencyOverrides := lat } h x v w = wordEffect p h x v w := by
  unfold wordEffect
  cases decode w with
  | instr i => cases i <;> rfl
  | illegal e => rfl

theorem runWords_withLatency (ws : List CmdWord) (s : State) (lat : List (CmdWord × Nat)) {t : State}
    (h : runWords ws s = .next t) : runWords ws (s.withLatency lat) = .next (t.withLatency lat) := by
  induction ws generalizing s with
  | nil => cases h; rfl
  | cons w ws ih =>
    simp only [runWords, runWord_eq_effect] at h ⊢
    have heffect : (s.withLatency lat).complete (wordEffect (s.withLatency lat).params s.hi s.lo s.lastValue w) =
        (s.complete (wordEffect s.params s.hi s.lo s.lastValue w)).withLatency lat :=
      congrArg (s.withLatency lat).complete (wordEffect_withLatency ..)
    exact (congrArg (runWords ws) heffect).trans (ih _ h)

/-- Settles O58: each block refines the words as atomic transitions, and those do not read `LAT`. -/
theorem effectsDoNotDependOnLatency : Obligations.EffectsDoNotDependOnLatency := by
  intro ws s lat hq p
  obtain ⟨t, c, ht, hsteps⟩ := steps_hostSchedule ws s s.cycle [] hq
  obtain ⟨u, d, hu, hsteps'⟩ := steps_hostSchedule ws (s.withLatency lat) s.cycle [] hq
  have hut : u = t.withLatency lat := by
    rw [runWords_withLatency ws s lat ht] at hu; cases hu; rfl
  subst hut
  rw [List.append_nil] at hsteps hsteps'
  exact ⟨_, _, hsteps, hsteps', ⟨rfl, rfl, rfl⟩, rfl, rfl⟩

end Sys2Proof.Machine
end

/-! # State: reset, the ports, and what writes `last_value` (spec 10_state.md; O31, O38, O39, O47, O51) -/

section
/-! ## What writes `last_value` (spec R24) -/
namespace Sys2Proof.Machine

theorem countInRange_iff (n : Nat) : countInRange n = true ↔ 1 ≤ n ∧ n ≤ 8 := by
  simp [countInRange]

/-- The word is an output command that succeeds (spec R24): `get_bit`, `get_byte`, or `get_bits` of a count in
range. -/
def OutputSucceeds (w : CmdWord) : Prop :=
  decode w = .instr .getBit ∨ decode w = .instr .getByte ∨
    ∃ n : Byte, decode w = .instr (.getBits n) ∧ 1 ≤ n.toNat ∧ n.toNat ≤ 8

theorem delivery_of_outputSucceeds {w : CmdWord} (h : OutputSucceeds w) (t : State) :
    delivery w t = some t.rspData := by
  rcases h with hd | hd | ⟨n, hd, hn⟩
  · simp only [delivery, hd]
  · simp only [delivery, hd]
  · simp only [delivery, hd, countOperand, (countInRange_iff n.toNat).2 hn, if_true]

theorem outputSucceeds_of_delivery {w : CmdWord} {t : State} {v : Byte} (h : delivery w t = some v) :
    OutputSucceeds w := by
  unfold delivery at h
  split at h
  · next hd => exact .inl hd
  · next n hd =>
    split at h
    · next hn => exact .inr (.inr ⟨n, hd, (countInRange_iff n.toNat).1 hn⟩)
    · cases h
  · next hd => exact .inr (.inl hd)
  · cases h

theorem delivery_of_not_outputSucceeds {w : CmdWord} (h : ¬OutputSucceeds w) (t : State) :
    delivery w t = none :=
  Option.eq_none_iff_forall_ne_some.2 fun _ hv => h (outputSucceeds_of_delivery hv)

/-- A word leaves in `last_value` the byte it delivers, and where it delivers none what was there (spec R24). -/
theorem lastValue_of_runWord {w : CmdWord} {s t : State} (h : runWord w s = .next t) :
    t.lastValue = (delivery w t).getD s.lastValue := by
  rw [runWord_eq_effect] at h
  cases h
  unfold wordEffect delivery
  cases decode w with
  | illegal e => rfl
  | instr i =>
    cases i with
    | fixSeed => by_cases hz : registerZero s.hi s.lo = true <;> simp [effectOf, hz]
    | getBits n =>
      by_cases hn : countInRange (countOperand n) = true <;> simp [effectOf, errorEffect, hn]
    | _ => rfl

/-- An output command that succeeds reports OK (spec R140, R141, R142). -/
theorem rspStatus_of_outputSucceeds {w : CmdWord} {s t : State} (hw : OutputSucceeds w)
    (h : runWord w s = .next t) : t.rspStatus = Status.ok.code := by
  rw [runWord_eq_effect] at h
  cases h
  rcases hw with hd | hd | ⟨n, hd, hn⟩
  · simp only [wordEffect, hd, effectOf, State.complete_rspStatus]
  · simp only [wordEffect, hd, effectOf, State.complete_rspStatus]
  · simp only [wordEffect, hd, effectOf, countOperand, (countInRange_iff n.toNat).2 hn, if_true,
      State.complete_rspStatus]

theorem clockEdge_of_rst {e : EdgeInput} (h : e.rst = true) (s : State) :
    clockEdge e s = .next s.applyReset := by
  simp [clockEdge, h]

/-- Settles O31: `last_value` after a word is its delivery, or else the old value; and reset sets it. -/
theorem onlySuccessfulOutputsWriteLastValue : Obligations.OnlySuccessfulOutputsWriteLastValue := by
  refine ⟨fun w s => ?_, fun e s hr => ⟨_, clockEdge_of_rst hr s, rfl⟩⟩
  have hrun := runWord_eq_effect w s
  have hlast := lastValue_of_runWord hrun
  refine ⟨_, hrun, fun (hw : OutputSucceeds w) => ⟨?_, rspStatus_of_outputSucceeds hw hrun⟩,
    fun (hw : ¬OutputSucceeds w) => ?_⟩
  · rw [hlast, delivery_of_outputSucceeds hw, Option.getD_some]
  · rw [hlast, delivery_of_not_outputSucceeds hw, Option.getD_none]

end Sys2Proof.Machine
end

section
/-! ## Reset and the ports (spec R34, R36, R190, R191) -/
namespace Sys2Proof.Machine

/-- The two bytes of a seed are the seed (spec R13). -/
theorem hiByte_append_loByte (x : Seed) : x.hiByte ++ x.loByte = x :=
  (BitVec.extractLsb'_append_extractLsb'_eq_extractLsb' rfl).trans BitVec.extractLsb'_eq_self

theorem obsPort_of_ready {s : State} (h : s.cmdReady = true) (p : ObsPort) : s.obsPort p = s.observed p := by
  simp [State.obsPort, h]

theorem clockEdge_present {s : State} (hq : s.inFlight = none) (w : CmdWord) :
    clockEdge (.present w) s = acceptWord w s := by
  simp [clockEdge, EdgeInput.present, hq]

/-- Settles O38: a reset edge is `applyReset`, which leaves the block ready: its ports show its registers, and the
next edge accepts. -/
theorem resetEdgeRestoresEveryRegister : Obligations.ResetEdgeRestoresEveryRegister := by
  intro s e hr
  have hready : s.applyReset.cmdReady = true := rfl
  exact ⟨s.applyReset, clockEdge_of_rst hr s, rfl, rfl, rfl, rfl, rfl, rfl, rfl, ⟨rfl, rfl, rfl⟩, hready,
    obsPort_of_ready hready .hi, obsPort_of_ready hready .lo, obsPort_of_ready hready .last,
    clockEdge_present rfl⟩

/-- Settles O39: the register holds the two bytes of `DEFAULT_SEED`, and every other register its reset value. -/
theorem resetStateHoldsTheDefaultSeed : Obligations.ResetStateHoldsTheDefaultSeed :=
  ⟨hiByte_append_loByte Params.specDefault.defaultSeed, rfl, rfl, rfl, rfl, rfl, rfl, rfl⟩

/-- Settles O47: a ready block's observation ports show their registers, and so do the other ports always. -/
theorem observationPortsShowTheRegistersWhileIdle :
    Obligations.ObservationPortsShowTheRegistersWhileIdle := by
  intro s hready
  simp only [State.ports, hready, obsPort_of_ready hready, State.observed]

/-- Reset establishes the invariant for every conforming choice of the parameters (spec R8, R9, R10). -/
theorem resetWith_inv {p : Params} (hp : p.wellFormed = true) (cycle : Nat) (inputs : List EdgeInput) :
    (State.resetWith p cycle inputs).Inv :=
  ⟨rfl, rfl, hp⟩

theorem specDefault_wellFormed : Params.specDefault.wellFormed = true := by decide

/-- Settles O51: the spec's default parameters conform. -/
theorem resetMeetsTheInvariant : Obligations.ResetMeetsTheInvariant :=
  resetWith_inv specDefault_wellFormed 0 []

end Sys2Proof.Machine
end

/-! # Memory: commands as atomic transitions (spec 20_memory.md; O14, O55) -/

section
/-! ## The nonzero values of `lo` form one cycle of 255 (spec R127) -/
namespace Sys2Proof.Machine

theorem loAfter_of_zero (k : Nat) : loAfter k 0x00#8 = 0x00#8 := by
  induction k with
  | zero => rfl
  | succ k ih => exact ih

theorem hiAfter_of_zero (k : Nat) : hiAfter k 0x00#8 0x00#8 = 0x00#8 := by
  induction k with
  | zero => rfl
  | succ k ih => exact ih

/-- The first `n` values of `lo` from `x` on, as a set of bytes: bit `y` of the number is set for each value `y`. One
evaluation of it says of every byte whether it is among them. -/
def visitedMask : Nat → Byte → Nat
  | 0, _ => 0
  | n + 1, x => 2 ^ x.toNat ||| visitedMask n (advanceLo x)

theorem testBit_visitedMask (n : Nat) (x y : Byte) :
    (visitedMask n x).testBit y.toNat = true ↔ ∃ k, k < n ∧ loAfter k x = y := by
  induction n generalizing x with
  | zero => simp [visitedMask]
  | succ n ih =>
    rw [visitedMask, Nat.testBit_or, Nat.testBit_two_pow, Bool.or_eq_true, decide_eq_true_eq, ih, BitVec.toNat_inj]
    exact (Nat.exists_lt_succ_left (p := fun k => loAfter k x = y)).symm

set_option maxRecDepth 4000 in
/-- The 254 values after 0x01 fill bits 2 to 255. -/
theorem visitedMask_after_one : visitedMask 254 (advanceLo 0x01#8) = (2 ^ 254 - 1) <<< 2 := by decide

/-- The 254 values after 0x01 are all the bytes but 0x00 and 0x01. -/
theorem exists_loAfter_succ_one_iff (y : Byte) : (∃ k, k < 254 ∧ loAfter (k + 1) 0x01#8 = y) ↔ 2 ≤ y.toNat := by
  have hbits := testBit_visitedMask 254 (advanceLo 0x01#8) y
  rw [visitedMask_after_one, Nat.testBit_shiftLeft, Nat.testBit_two_pow_sub_one, Bool.and_eq_true,
    decide_eq_true_eq, decide_eq_true_eq] at hbits
  have hlt : y.toNat < 2 ^ 8 := y.isLt
  exact hbits.symm.trans ⟨fun ⟨hge, _⟩ => hge, fun hge => ⟨hge, by omega⟩⟩

set_option maxRecDepth 4000 in
theorem loAfter_255_one : loAfter 255 0x01#8 = 0x01#8 := by decide

theorem loAfter_one_ne_one {k : Nat} (hpos : 0 < k) (hlt : k < 255) : loAfter k 0x01#8 ≠ 0x01#8 := by
  intro h
  obtain ⟨j, rfl⟩ : ∃ j, k = j + 1 := ⟨k - 1, by omega⟩
  exact absurd ((exists_loAfter_succ_one_iff 0x01#8).1 ⟨j, by omega, h⟩) (by decide)

/-- Every nonzero value lies on the cycle of 0x01. -/
theorem exists_loAfter_one_eq {x : Byte} (hx : x ≠ 0x00#8) : ∃ k, k < 255 ∧ loAfter k 0x01#8 = x := by
  by_cases hone : x = 0x01#8
  · exact ⟨0, by omega, hone.symm⟩
  · have hzero : x.toNat ≠ 0 := BitVec.toNat_ne_iff_ne.2 hx
    have hone' : x.toNat ≠ 1 := BitVec.toNat_ne_iff_ne.2 hone
    obtain ⟨k, hk, hkx⟩ := (exists_loAfter_succ_one_iff x).2 (by omega)
    exact ⟨k + 1, by omega, hkx⟩

/-- A nonzero `lo` does not return before 255 advances (spec R127): on along the cycle, 0x01 would return too. -/
theorem loAfter_ne_self {x : Byte} (hx : x ≠ 0x00#8) {k : Nat} (hpos : 0 < k) (hlt : k < 255) :
    loAfter k x ≠ x := by
  intro hback
  obtain ⟨j, hj, rfl⟩ := exists_loAfter_one_eq hx
  have hcycle (m : Nat) : loAfter (255 - j) (loAfter (j + m) 0x01#8) = loAfter m 0x01#8 := by
    rw [← loAfter_add, show j + m + (255 - j) = 255 + m by omega, loAfter_add, loAfter_255_one]
  rw [← loAfter_add] at hback
  have hone := hcycle k
  rw [hback] at hone
  exact loAfter_one_ne_one hpos hlt (hone.symm.trans (hcycle 0))

end Sys2Proof.Machine
end

section
/-! ## Which commands may be done twice (spec R46) -/
namespace Sys2Proof.Machine

theorem State.complete_complete (s : State) (x y : Effect) : (s.complete x).complete y = s.complete y := rfl

/-- `init` and `set_seed` do not read the register. After `fix_seed` it is nonzero, and kept, or `FALLBACK_SEED`,
which a second one writes again if it is zero. -/
theorem effectOf_seed_idempotent (p : Params) (h x v : Byte) {i : Instr}
    (hseed : i = .init ∨ (∃ hi lo, i = .setSeed hi lo) ∨ i = .fixSeed) :
    effectOf p (effectOf p h x v i).hi (effectOf p h x v i).lo (effectOf p h x v i).lastValue i =
      effectOf p h x v i := by
  rcases hseed with rfl | ⟨hi, lo, rfl⟩ | rfl
  · rfl
  · rfl
  · by_cases hzero : registerZero h x = true
    · simp [effectOf, hzero]
    · simp [effectOf, hzero]

/-- The command's effect on the register is that of `k` advances. -/
def AdvancesBy (i : Instr) (k : Nat) : Prop :=
  ∀ p h x v, (effectOf p h x v i).hi = hiAfter k h x ∧ (effectOf p h x v i).lo = loAfter k x

theorem getBits_advancesBy {n : Byte} (hn : 1 ≤ n.toNat ∧ n.toNat ≤ 8) : AdvancesBy (.getBits n) n.toNat := by
  intro p h x v
  simp only [effectOf, countOperand, (countInRange_iff n.toNat).2 hn, if_true, and_self]

theorem exists_advancesBy {i : Instr}
    (hadvance : i = .advanceBit ∨ i = .getBit ∨ i = .getByte ∨
      (∃ n : Byte, i = .advanceBits n ∧ 1 ≤ n.toNat ∧ n.toNat ≤ 254) ∨
      (∃ n : Byte, i = .getBits n ∧ 1 ≤ n.toNat ∧ n.toNat ≤ 8)) :
    ∃ k, 1 ≤ k ∧ k ≤ 254 ∧ AdvancesBy i k := by
  rcases hadvance with rfl | rfl | rfl | ⟨n, rfl, hpos, hle⟩ | ⟨n, rfl, hpos, hle⟩
  · exact ⟨1, by omega, by omega, fun _ _ _ _ => ⟨rfl, rfl⟩⟩
  · exact ⟨1, by omega, by omega, fun _ _ _ _ => ⟨rfl, rfl⟩⟩
  · exact ⟨8, by omega, by omega, fun _ _ _ _ => ⟨rfl, rfl⟩⟩
  · exact ⟨n.toNat, hpos, hle, fun _ _ _ _ => ⟨rfl, rfl⟩⟩
  · exact ⟨n.toNat, hpos, by omega, getBits_advancesBy ⟨hpos, hle⟩⟩

/-- Settles O14: a seed command's effect is idempotent; fewer than 255 advances do not return a nonzero `lo`. -/
theorem seedCommandsAreIdempotentAndAdvancesAreNot :
    Obligations.SeedCommandsAreIdempotentAndAdvancesAreNot := by
  constructor
  · intro i s hseed
    refine ⟨_, exec_eq_effect i s, ?_⟩
    rw [exec_eq_effect, State.complete_complete]
    simp only [State.complete_params, State.complete_hi, State.complete_lo, State.complete_lastValue,
      effectOf_seed_idempotent s.params s.hi s.lo s.lastValue hseed]
  · intro i s hadvance
    obtain ⟨k, hpos, hle, hby⟩ := exists_advancesBy hadvance
    obtain ⟨hhi, hlo⟩ := hby s.params s.hi s.lo s.lastValue
    refine ⟨_, exec_eq_effect i s, fun hlive hsame => ?_, fun hh hx => ?_⟩
    · rw [State.complete_lo, hlo] at hsame
      exact loAfter_ne_self hlive (by omega) (by omega) hsame
    · rw [State.complete_hi, State.complete_lo, hhi, hlo, hh, hx]
      exact ⟨hiAfter_of_zero k, loAfter_of_zero k⟩

end Sys2Proof.Machine
end

section
/-! ## The clocked block refines the list of its commands (spec R45, R49, R206) -/
namespace Sys2Proof.Machine

/-- Commands done as atomic transitions write no parameter and leave an idle block idle. -/
theorem runWords_idle {ws : List CmdWord} {s t : State} (hq : s.inFlight = none) (h : runWords ws s = .next t) :
    t.params = s.params ∧ t.inFlight = none := by
  induction ws generalizing s with
  | nil => cases h; exact ⟨rfl, hq⟩
  | cons w ws ih =>
    simp only [runWords, runWord_eq_effect] at h
    exact ih (s := s.complete _) rfl h

/-- Settles O55: `steps_hostSchedule`, and what atomic transitions leave unchanged. -/
theorem scheduledCommandsTakeEffectInOrder : Obligations.ScheduledCommandsTakeEffectInOrder := by
  intro ws s rest hq
  obtain ⟨t, cycle, ht, hu⟩ := steps_hostSchedule ws s s.cycle rest hq
  obtain ⟨hparams, hidle⟩ := runWords_idle hq ht
  exact ⟨t, _, ht, hu, ⟨rfl, rfl, rfl⟩, rfl, rfl, rfl, hidle, hparams, rfl⟩

end Sys2Proof.Machine
end

/-! # Encoding: the decoder, the classes of words and the assembler (spec 30_encoding.md; O1 to O7, O59, O60) -/

section
/-! ## What the decoder answers (spec R63 to R67) -/
namespace Sys2Proof

/-- A word is its four fields (spec R61). -/
theorem fields_append (w : CmdWord) : opField w ++ rsvField w ++ aField w ++ bField w = w := by
  have hopRsv : opField w ++ rsvField w = w.extractLsb' 16 8 :=
    BitVec.extractLsb'_append_extractLsb'_eq_extractLsb' rfl
  have hupper : w.extractLsb' 16 8 ++ aField w = w.extractLsb' 8 16 :=
    BitVec.extractLsb'_append_extractLsb'_eq_extractLsb' rfl
  have hword : w.extractLsb' 8 16 ++ bField w = w.extractLsb' 0 24 :=
    BitVec.extractLsb'_append_extractLsb'_eq_extractLsb' rfl
  rw [hopRsv, hupper, hword, BitVec.extractLsb'_eq_self]

theorem commandWord_fields {w : CmdWord} (hrsv : rsvField w = 0#4) :
    commandWord (opField w) (aField w) (bField w) = w := by
  have h := fields_append w
  rwa [hrsv] at h

/-- The reserved opcodes are the words with bit 23 set (spec R66). -/
theorem getLsbD_23_iff (w : CmdWord) : w.getLsbD 23 = true ↔ 8 ≤ (opField w).toNat := by
  have hmsb : (opField w).msb = w.getLsbD 23 := by simp [BitVec.msb_eq_getLsbD_last, opField]
  rw [← hmsb, BitVec.msb_eq_decide, decide_eq_true_iff]

theorem encode_reservedPayload {w : CmdWord} (hop : 8 ≤ (opField w).toNat) :
    encode (.reserved (reservedPayload w)) = w := by
  have hbit : (1#1 : BitVec 1) = w.extractLsb' 23 1 :=
    BitVec.eq_of_getLsbD_eq_iff.2 (by simp [(getLsbD_23_iff w).2 hop])
  have hword : w.extractLsb' 23 1 ++ reservedPayload w = w.extractLsb' 0 24 :=
    BitVec.extractLsb'_append_extractLsb'_eq_extractLsb' rfl
  rw [encode, hbit, hword, BitVec.extractLsb'_eq_self]

theorem decodeFormatN_eq_instr_iff {i j : Instr} {a b : Byte} :
    decodeFormatN i a b = .instr j ↔ (a = 0#8 ∧ b = 0#8) ∧ i = j := by
  unfold decodeFormatN
  split <;> simp [*]

theorem decodeFormatC_eq_instr_iff {mk : Byte → Instr} {j : Instr} {a b : Byte} :
    decodeFormatC mk a b = .instr j ↔ a = 0#8 ∧ mk b = j := by
  unfold decodeFormatC
  split <;> simp [*]

theorem decodeFormatN_illegal_iff {i : Instr} {a b : Byte} :
    (∃ e, decodeFormatN i a b = .illegal e) ↔ a ≠ 0#8 ∨ b ≠ 0#8 := by
  rw [Ne, Ne, ← Decidable.not_and_iff_not_or_not]
  unfold decodeFormatN
  split <;> simp [*]

theorem decodeFormatC_illegal_iff {mk : Byte → Instr} {a b : Byte} :
    (∃ e, decodeFormatC mk a b = .illegal e) ↔ a ≠ 0#8 := by
  unfold decodeFormatC
  split <;> simp [*]

/-- What `decode w` can be, in the order of its checks (spec R65): by format, not by opcode. -/
inductive DecodeCase (w : CmdWord) : Prop where
  | reserved (hop : 8 ≤ (opField w).toNat) (hd : decode w = .instr (.reserved (reservedPayload w)))
  | rsvNonzero (hop : (opField w).toNat < 8) (hrsv : rsvField w ≠ 0#4)
      (hd : decode w = .illegal .reservedFieldNonzero)
  | formatN (i : Instr) (hf : opFormat (opField w) = some .n) (hrsv : rsvField w = 0#4)
      (henc : encode i = commandWord (opField w) 0#8 0#8) (hd : decode w = decodeFormatN i (aField w) (bField w))
  | formatS (hf : opFormat (opField w) = some .s) (hrsv : rsvField w = 0#4)
      (henc : ∀ a b, encode (.setSeed a b) = commandWord (opField w) a b)
      (hd : decode w = .instr (.setSeed (aField w) (bField w)))
  | formatC (mk : Byte → Instr) (hf : opFormat (opField w) = some .c) (hrsv : rsvField w = 0#4)
      (henc : ∀ n, encode (mk n) = commandWord (opField w) 0#8 n)
      (hd : decode w = decodeFormatC mk (aField w) (bField w))

theorem opcode_cases {op : BitVec 4} (h : op.toNat < 8) :
    op = 0#4 ∨ op = 1#4 ∨ op = 2#4 ∨ op = 3#4 ∨ op = 4#4 ∨ op = 5#4 ∨ op = 6#4 ∨ op = 7#4 := by
  revert op; decide

theorem decode_of_reservedOpcode {w : CmdWord} (hop : 8 ≤ (opField w).toNat) :
    decode w = .instr (.reserved (reservedPayload w)) := by
  simp [decode, hop]

theorem decodeCase (w : CmdWord) : DecodeCase w := by
  rcases Nat.lt_or_ge (opField w).toNat 8 with hop | hop
  · by_cases hrsv : rsvField w = 0#4
    · rcases opcode_cases hop with h | h | h | h | h | h | h | h
      · exact .formatN .init (h ▸ rfl) hrsv (h ▸ rfl) (by simp [decode, h, hrsv])
      · exact .formatS (h ▸ rfl) hrsv (h ▸ fun _ _ => rfl) (by simp [decode, h, hrsv, decodeFormatS])
      · exact .formatN .fixSeed (h ▸ rfl) hrsv (h ▸ rfl) (by simp [decode, h, hrsv])
      · exact .formatN .advanceBit (h ▸ rfl) hrsv (h ▸ rfl) (by simp [decode, h, hrsv])
      · exact .formatC .advanceBits (h ▸ rfl) hrsv (h ▸ fun _ => rfl) (by simp [decode, h, hrsv])
      · exact .formatN .getBit (h ▸ rfl) hrsv (h ▸ rfl) (by simp [decode, h, hrsv])
      · exact .formatC .getBits (h ▸ rfl) hrsv (h ▸ fun _ => rfl) (by simp [decode, h, hrsv])
      · exact .formatN .getByte (h ▸ rfl) hrsv (h ▸ rfl) (by simp [decode, h, hrsv])
    · exact .rsvNonzero hop hrsv (by simp [decode, hop, hrsv])
  · exact .reserved hop (decode_of_reservedOpcode hop)

/-- Settles O2: the fields of an encoded word are the opcode and the operands it was made of. -/
theorem encodedInstructionDecodesToItself : Obligations.EncodedInstructionDecodesToItself := by
  intro i
  cases i with
  | setSeed hi lo => simp [encode, decode, decodeFormatS]
  | advanceBits n => simp [encode, decode, decodeFormatC]
  | getBits n => simp [encode, decode, decodeFormatC]
  | reserved any => rw [decode_of_reservedOpcode (opField_reserved any), reservedPayload_encode]
  | _ => rfl

/-- Settles O3: the fields that a format does not use are zero, and the others are in the instruction. -/
theorem everyWordHasAtMostOneMeaning : Obligations.EveryWordHasAtMostOneMeaning := by
  intro w i h
  cases decodeCase w with
  | reserved hop hd => cases hd.symm.trans h; exact encode_reservedPayload hop
  | rsvNonzero hop hrsv hd => cases hd.symm.trans h
  | formatN j hf hrsv henc hd =>
    obtain ⟨⟨ha, hb⟩, rfl⟩ := decodeFormatN_eq_instr_iff.1 (hd.symm.trans h)
    have hw := commandWord_fields hrsv
    rwa [ha, hb, ← henc] at hw
  | formatS hf hrsv henc hd => cases hd.symm.trans h; rw [henc, commandWord_fields hrsv]
  | formatC mk hf hrsv henc hd =>
    obtain ⟨ha, rfl⟩ := decodeFormatC_eq_instr_iff.1 (hd.symm.trans h)
    have hw := commandWord_fields hrsv
    rwa [ha, ← henc] at hw

theorem decode_eq_instr_iff {w : CmdWord} {i : Instr} : decode w = .instr i ↔ encode i = w :=
  ⟨everyWordHasAtMostOneMeaning w i, fun h => h ▸ encodedInstructionDecodesToItself i⟩

end Sys2Proof
end

section
/-! ## Which words are illegal (spec R66, R67) -/
namespace Sys2Proof.Machine

theorem raise_completes (s : State) (e : CommandError) :
    SameGenerator s (s.raise e) ∧ CompletedWith s (s.raise e) e.status 0x00#8 :=
  ⟨⟨rfl, rfl, rfl⟩, rfl, rfl, rfl, rfl, rfl, rfl, rfl⟩

theorem complete_completedWith (s : State) (x : Effect) : CompletedWith s (s.complete x) x.status x.data :=
  ⟨rfl, rfl, rfl, rfl, rfl, rfl, rfl⟩

theorem endsInError_of_runWord {w : CmdWord} {s : State} {e : CommandError} (h : runWord w s = .next (s.raise e)) :
    EndsInError w s e :=
  ⟨s.raise e, h, raise_completes s e⟩

theorem exec_reserved (any : BitVec 23) (s : State) : exec (.reserved any) s = .next (s.raise .illegalCommand) := rfl

/-- Settles O4: the decoder tests bit 23 first, and the reserved class raises the error. -/
theorem reservedOpcodesRaiseIllegalCommand : Obligations.ReservedOpcodesRaiseIllegalCommand := by
  refine ⟨getLsbD_23_iff, fun w s hbit => ?_, fun any s => ⟨_, exec_reserved any s, raise_completes s _⟩⟩
  have hd := decode_of_reservedOpcode ((getLsbD_23_iff w).1 hbit)
  exact ⟨⟨_, hd⟩, endsInError_of_runWord ((runWord_of_decode_instr hd s).trans (exec_reserved _ s))⟩

/-- A field that the word's format does not use is nonzero (spec R67). -/
def UnusedFieldNonzero (w : CmdWord) : Prop :=
  rsvField w ≠ 0#4 ∨ (opFormat (opField w) = some .n ∧ (aField w ≠ 0#8 ∨ bField w ≠ 0#8)) ∨
    (opFormat (opField w) = some .c ∧ aField w ≠ 0#8)

theorem opFormat_eq_n_iff (op : BitVec 4) :
    opFormat op = some .n ↔ op = 0#4 ∨ op = 2#4 ∨ op = 3#4 ∨ op = 5#4 ∨ op = 7#4 := by
  revert op; decide

theorem opFormat_eq_c_iff (op : BitVec 4) : opFormat op = some .c ↔ op = 4#4 ∨ op = 6#4 := by
  revert op; decide

theorem opFormat_ne_none_iff (op : BitVec 4) : opFormat op ≠ none ↔ op.toNat < 8 := by
  revert op; decide

theorem decode_illegal_iff {w : CmdWord} (hop : (opField w).toNat < 8) :
    (∃ e, decode w = .illegal e) ↔ UnusedFieldNonzero w := by
  unfold UnusedFieldNonzero
  cases decodeCase w with
  | reserved hres hd => omega
  | rsvNonzero hop hrsv hd => simp [hd, hrsv]
  | formatN i hf hrsv henc hd => rw [hd, decodeFormatN_illegal_iff]; simp [hf, hrsv]
  | formatS hf hrsv henc hd => simp [hd, hf, hrsv]
  | formatC mk hf hrsv henc hd => rw [hd, decodeFormatC_illegal_iff]; simp [hf, hrsv]

/-- The formats' own reading of the fields, which does not go through `decode`, says the same. -/
theorem wellFormedWord_eq_false_iff {w : CmdWord} (hop : (opField w).toNat < 8) :
    wellFormedWord w = false ↔ UnusedFieldNonzero w := by
  unfold wellFormedWord UnusedFieldNonzero
  cases hf : opFormat (opField w) with
  | none => exact absurd hf ((opFormat_ne_none_iff _).2 hop)
  | some f => cases f <;> simp [Format.unusedZero, Decidable.imp_iff_not_or]

/-- Settles O5: the decoder and the formats name the same words, and such a word raises the error. -/
theorem fieldChecksDecideWhichWordsAreIllegal : Obligations.FieldChecksDecideWhichWordsAreIllegal := by
  intro w hop
  simp only [← opFormat_eq_n_iff, ← opFormat_eq_c_iff]
  refine ⟨decode_illegal_iff hop, wellFormedWord_eq_false_iff hop, fun hbad s => ?_⟩
  obtain ⟨e, hd⟩ := (decode_illegal_iff hop).2 hbad
  exact endsInError_of_runWord (runWord_of_decode_illegal hd s)

end Sys2Proof.Machine
end

section
/-! ## Words with operands, written as numbers (spec R64, R68, R73) -/
namespace Sys2Proof.Machine

/-- The upper byte and the two operand bytes of a command's word. -/
theorem commandWord_eq_append (op : BitVec 4) (a b : Byte) : commandWord op a b = (op ++ 0#4) ++ (a ++ b) :=
  BitVec.append_assoc.trans (BitVec.cast_eq ..)

/-- The operand bytes stand in the low bits of the word of an opcode. -/
theorem or_operands_eq_commandWord (op : BitVec 4) (a b : Byte) :
    commandWord op 0#8 0#8 ||| (a ++ b).setWidth 24 = commandWord op a b := by
  have hwide : (a ++ b).setWidth 24 = 0#8 ++ (a ++ b) :=
    (BitVec.setWidth_eq_append (by omega)).trans (BitVec.cast_eq ..)
  rw [hwide, commandWord_eq_append, commandWord_eq_append, BitVec.or_append]
  simp

theorem or_operand_eq_commandWord (op : BitVec 4) (b : Byte) :
    commandWord op 0#8 0#8 ||| b.setWidth 24 = commandWord op 0#8 b := by
  have hwide : (0#8 ++ b).setWidth 24 = b.setWidth 24 := 
    BitVec.eq_of_toNat_eq (by rw [BitVec.toNat_setWidth, BitVec.toNat_append]; simp)
  rw [← hwide, or_operands_eq_commandWord]

theorem encode_setSeed (a b : Byte) : encode (.setSeed a b) = 0x100000#24 ||| (a ++ b).setWidth 24 :=
  (or_operands_eq_commandWord 0x1#4 a b).symm

theorem encode_advanceBits (n : Byte) : encode (.advanceBits n) = 0x400000#24 ||| n.setWidth 24 :=
  (or_operand_eq_commandWord 0x4#4 n).symm

theorem encode_getBits (n : Byte) : encode (.getBits n) = 0x600000#24 ||| n.setWidth 24 :=
  (or_operand_eq_commandWord 0x6#4 n).symm

theorem exec_getBits_of_not_inRange {n : Byte} (hn : ¬(1 ≤ n.toNat ∧ n.toNat ≤ 8)) (s : State) :
    exec (.getBits n) s = .next (s.raise .invalidArgument) :=
  if_neg (mt (countInRange_iff n.toNat).1 hn)

/-- Settles O6: the words are encodings, so they decode; the range is checked when `get_bits` is executed. -/
theorem countWordsAreWellFormedForEveryCount : Obligations.CountWordsAreWellFormedForEveryCount := by
  intro n
  rw [← encode_getBits, ← encode_advanceBits]
  have hget := encodedInstructionDecodesToItself (.getBits n)
  have hadvance := encodedInstructionDecodesToItself (.advanceBits n)
  refine ⟨hget, hadvance, fun s hn => ?_, fun s => ?_⟩
  · have hrange : ¬(1 ≤ n.toNat ∧ n.toNat ≤ 8) := by
      rcases hn with rfl | hn
      · decide
      · omega
    exact endsInError_of_runWord ((runWord_of_decode_instr hget s).trans (exec_getBits_of_not_inRange hrange s))
  · refine ⟨_, (runWord_of_decode_instr hadvance s).trans (exec_eq_effect _ s), complete_completedWith s _, ?_⟩
    rintro rfl
    exact ⟨rfl, rfl, rfl⟩

end Sys2Proof.Machine
end

section
/-! ## The classes of words and their statuses (spec R69) -/
namespace Sys2Proof.Machine

theorem encode_setSeed_append (a b : Byte) : encode (.setSeed a b) = 0x10#8 ++ (a ++ b) := by
  have hop : (0x1#4 ++ 0#4 : Byte) = 0x10#8 := by decide
  rw [encode, commandWord_eq_append, hop]

theorem encode_advanceBits_append (n : Byte) : encode (.advanceBits n) = 0x4000#16 ++ n := rfl

theorem encode_getBits_append (n : Byte) : encode (.getBits n) = 0x6000#16 ++ n := rfl

theorem wellFormedWord_encode (i : Instr) : wellFormedWord (encode i) = i.wellFormed := by
  cases i with
  | init => exact Laws.TableRow.init.2
  | setSeed hi lo => exact (Laws.TableRow.setSeed hi lo).2
  | fixSeed => exact Laws.TableRow.fixSeed.2
  | advanceBit => exact Laws.TableRow.advanceBit.2
  | advanceBits n => exact (Laws.TableRow.advanceBits n).2
  | getBit => exact Laws.TableRow.getBit.2
  | getBits n => exact (Laws.TableRow.getBits n).2
  | getByte => exact Laws.TableRow.getByte.2
  | reserved any => exact (Laws.TableRow.reserved any).2

theorem wellFormedWord_of_decode_instr {w : CmdWord} {i : Instr} (h : decode w = .instr i) :
    wellFormedWord w = i.wellFormed := by
  rw [← decode_eq_instr_iff.1 h, wellFormedWord_encode]

theorem wellFormedWord_of_decode_illegal {w : CmdWord} {e : DecodeError} (h : decode w = .illegal e) :
    wellFormedWord w = false := by
  rcases Nat.lt_or_ge (opField w).toNat 8 with hop | hop
  · exact (wellFormedWord_eq_false_iff hop).2 ((decode_illegal_iff hop).1 ⟨e, h⟩)
  · cases (decode_of_reservedOpcode hop).symm.trans h

/-- The well-formed words are the encodings of the eight commands. -/
theorem wellFormedWord_iff {w : CmdWord} :
    wellFormedWord w = true ↔ ∃ i : Instr, i.wellFormed = true ∧ encode i = w := by
  constructor
  · intro hw
    cases hd : decode w with
    | instr i => exact ⟨i, (wellFormedWord_of_decode_instr hd).symm.trans hw, decode_eq_instr_iff.1 hd⟩
    | illegal e => rw [wellFormedWord_of_decode_illegal hd] at hw; cases hw
  · rintro ⟨i, hi, rfl⟩
    rwa [wellFormedWord_encode]

/-- Those encodings, command by command. -/
theorem exists_wellFormed_encode_iff (w : CmdWord) :
    (∃ i : Instr, i.wellFormed = true ∧ encode i = w) ↔
      w ∈ [0x000000#24, 0x200000#24, 0x300000#24, 0x500000#24, 0x700000#24] ∨
      (∃ x : Seed, w = 0x10#8 ++ x) ∨ (∃ n : Byte, w = 0x4000#16 ++ n) ∨ (∃ n : Byte, w = 0x6000#16 ++ n) := by
  constructor
  · rintro ⟨i, hi, rfl⟩
    cases i with
    | setSeed a b => exact .inr (.inl ⟨_, encode_setSeed_append a b⟩)
    | advanceBits n => exact .inr (.inr (.inl ⟨n, rfl⟩))
    | getBits n => exact .inr (.inr (.inr ⟨n, rfl⟩))
    | reserved any => cases hi
    | _ => exact .inl (by decide)
  · rintro (h | ⟨x, rfl⟩ | ⟨n, rfl⟩ | ⟨n, rfl⟩)
    · simp only [List.mem_cons, List.not_mem_nil, or_false] at h
      rcases h with rfl | rfl | rfl | rfl | rfl
      · exact ⟨.init, rfl, rfl⟩
      · exact ⟨.fixSeed, rfl, rfl⟩
      · exact ⟨.advanceBit, rfl, rfl⟩
      · exact ⟨.getBit, rfl, rfl⟩
      · exact ⟨.getByte, rfl, rfl⟩
    · exact ⟨.setSeed x.hiByte x.loByte, rfl, by rw [encode_setSeed_append, hiByte_append_loByte]⟩
    · exact ⟨.advanceBits n, rfl, rfl⟩
    · exact ⟨.getBits n, rfl, rfl⟩

/-- The word is a `get_bits` whose count is out of range (spec R68). -/
def CountOutOfRange (w : CmdWord) : Prop := ∃ n : Byte, w = 0x6000#16 ++ n ∧ ¬(1 ≤ n.toNat ∧ n.toNat ≤ 8)

theorem countOutOfRange_iff (w : CmdWord) :
    CountOutOfRange w ↔ ∃ n, decode w = .instr (.getBits n) ∧ ¬(1 ≤ n.toNat ∧ n.toNat ≤ 8) := by
  simp only [CountOutOfRange, decode_eq_instr_iff, encode_getBits_append, eq_comm]

/-- The status an instruction reports: it depends on no state (spec R164, R165). -/
def reportedStatus : Instr → Status
  | .getBits n => if countInRange (countOperand n) then .ok else .invalidArgument
  | .reserved _ => .illegalCommand
  | _ => .ok

theorem effectOf_status (p : Params) (h x v : Byte) (i : Instr) : (effectOf p h x v i).status = reportedStatus i := by
  cases i with
  | fixSeed => exact (apply_ite Effect.status ..).trans (ite_self ..)
  | getBits n => exact apply_ite Effect.status ..
  | _ => rfl

theorem reportedStatus_illegalCommand_iff (i : Instr) :
    reportedStatus i = .illegalCommand ↔ i.wellFormed = false := by
  cases i with
  | getBits n => by_cases hn : countInRange (countOperand n) = true <;> simp [reportedStatus, hn, Instr.wellFormed]
  | _ => simp [reportedStatus, Instr.wellFormed]

theorem reportedStatus_invalidArgument_iff (i : Instr) :
    reportedStatus i = .invalidArgument ↔ ∃ n, i = .getBits n ∧ ¬(1 ≤ n.toNat ∧ n.toNat ≤ 8) := by
  cases i with
  | getBits n =>
    by_cases hn : countInRange n.toNat = true <;> simp [reportedStatus, countOperand, hn, ← countInRange_iff]
  | _ => simp [reportedStatus]

theorem wordEffect_illegalCommand_iff (p : Params) (h x v : Byte) (w : CmdWord) :
    (wordEffect p h x v w).status = .illegalCommand ↔ wellFormedWord w = false := by
  unfold wordEffect
  cases hd : decode w with
  | instr i => simp only [effectOf_status, reportedStatus_illegalCommand_iff, wellFormedWord_of_decode_instr hd]
  | illegal e => simp [errorEffect, CommandError.status, wellFormedWord_of_decode_illegal hd]

theorem wordEffect_invalidArgument_iff (p : Params) (h x v : Byte) (w : CmdWord) :
    (wordEffect p h x v w).status = .invalidArgument ↔ CountOutOfRange w := by
  rw [countOutOfRange_iff]
  unfold wordEffect
  cases decode w with
  | instr i => simp only [effectOf_status, reportedStatus_invalidArgument_iff, Decoded.instr.injEq]
  | illegal e => simp [errorEffect, CommandError.status]

theorem code_eq_code_iff (st st' : Status) : st.code = st'.code ↔ st = st' := by
  cases st <;> cases st' <;> decide

theorem status_eq_ok_iff (st : Status) : st = .ok ↔ st ≠ .illegalCommand ∧ st ≠ .invalidArgument := by
  cases st <;> decide

/-- Settles O7: the well-formed words are the commands' encodings, and a word's status is that of its decoding. -/
theorem wordsFallIntoTheListedClasses : Obligations.WordsFallIntoTheListedClasses := by
  refine fun w => ⟨wellFormedWord_iff.trans (exists_wellFormed_encode_iff w), fun s => ?_⟩
  have hillegal := wordEffect_illegalCommand_iff s.params s.hi s.lo s.lastValue w
  have hinvalid := wordEffect_invalidArgument_iff s.params s.hi s.lo s.lastValue w
  refine ⟨_, runWord_eq_effect w s, (code_eq_code_iff _ .illegalCommand).trans hillegal,
    (code_eq_code_iff _ .invalidArgument).trans hinvalid, (code_eq_code_iff _ .ok).trans ?_⟩
  rw [status_eq_ok_iff, Ne, Ne, hillegal, hinvalid, Bool.not_eq_false]
  rfl

end Sys2Proof.Machine
end

section
/-! ## The words of a statement (spec R64, R71, R72, R73) -/
namespace Sys2Proof.Machine

/-- Settles O1: each word is evaluated by the decoder. -/
theorem wordsOfTheOpcodeMapDecode : Obligations.WordsOfTheOpcodeMapDecode := by
  unfold Obligations.WordsOfTheOpcodeMapDecode
  decide

theorem byteOperand_toNat (a : Byte) : byteOperand a.toNat = some a := by
  have ha : a.toNat ≤ 255 := Nat.le_of_lt_succ a.isLt
  simp [byteOperand, ha]

theorem byteOperand_eq_none_iff {n : Nat} : byteOperand n = none ↔ 255 < n := by
  simp [byteOperand]

theorem assembleOne_toNat (mk : Byte → List CmdWord) (a : Byte) : assembleOne mk a.toNat = .words (mk a) := by
  simp [assembleOne, byteOperand_toNat]

theorem assembleTwo_toNat (mk : Byte → Byte → List CmdWord) (a b : Byte) :
    assembleTwo mk a.toNat b.toNat = .words (mk a b) := by
  simp [assembleTwo, byteOperand_toNat]

theorem assembleOne_of_out_of_range (mk : Byte → List CmdWord) {n : Nat} (hn : 255 < n) :
    assembleOne mk n = .refused .operandOutOfRange := by
  simp [assembleOne, byteOperand_eq_none_iff.2 hn]

theorem assembleTwo_of_out_of_range (mk : Byte → Byte → List CmdWord) {m n : Nat} (h : 255 < m ∨ 255 < n) :
    assembleTwo mk m n = .refused .operandOutOfRange := by
  unfold assembleTwo
  rcases h with hm | hn
  · rw [byteOperand_eq_none_iff.2 hm]
  · rw [byteOperand_eq_none_iff.2 hn]
    cases byteOperand m <;> rfl

theorem assembleRaw_of_le {v : Nat} (hv : v ≤ 0xFFFFFF) : ∃ w, assembleRaw v = .words [w] ∧ w.toNat = v :=
  ⟨_, if_pos hv, (BitVec.toNat_ofNat ..).trans (Nat.mod_eq_of_lt (by omega))⟩

theorem assembleRaw_of_lt {v : Nat} (hv : 0xFFFFFF < v) : assembleRaw v = .refused .operandOutOfRange :=
  if_neg (Nat.not_le.2 hv)

/-- Settles O59: a byte's number is read back as the byte, and the words are the encodings written as numbers. -/
theorem pseudoInstructionsExpandAsListed : Obligations.PseudoInstructionsExpandAsListed := by
  refine ⟨rfl, fun a b => ?_⟩
  rw [← encode_setSeed, ← encode_advanceBits]
  exact ⟨assembleTwo_toNat _ a b, assembleTwo_toNat _ a b, assembleOne_toNat _ b⟩

end Sys2Proof.Machine
end

section
/-! ## The text of a line (spec R71; log 11) -/
namespace Sys2Proof.Machine

/-- A text that stripping the comment and trimming leave as it is: no `;`, and no blank at its two ends. -/
def LineText (cs : List Char) : Prop :=
  ';' ∉ cs ∧ ∃ hne : cs ≠ [], isBlank (cs.head hne) = false ∧ isBlank (cs.getLast hne) = false

theorem LineText.trimBlanks_eq {cs : List Char} (h : LineText cs) : trimBlanks cs = cs := by
  obtain ⟨-, hne, hfirst, hlast⟩ := h
  exact trimBlanks_of_ends hne hfirst hlast

theorem LineText.takeWhile_comment {cs : List Char} (h : LineText cs) : cs.takeWhile (fun c => c != ';') = cs := by
  obtain ⟨hcomment, -⟩ := h
  have hall : ∀ c ∈ cs, (c != ';') = true := fun c hc => bne_iff_ne.2 fun he => hcomment (he ▸ hc)
  have htake := List.takeWhile_append_of_pos (l₂ := []) hall
  rwa [List.takeWhile_nil, List.append_nil] at htake

theorem LineText.ne_nil {cs : List Char} (h : LineText cs) : cs ≠ [] :=
  let ⟨_, hne, _⟩ := h
  hne

theorem lineText_of_plain {cs : List Char} (hne : cs ≠ []) (hplain : ∀ c ∈ cs, isBlank c = false ∧ c ≠ ';') :
    LineText cs :=
  ⟨fun hc => (hplain _ hc).2 rfl, hne, (hplain _ (List.head_mem hne)).1, (hplain _ (List.getLast_mem hne)).1⟩

theorem LineText.append {xs sep ys : List Char} (hx : LineText xs) (hsep : ';' ∉ sep) (hy : LineText ys) :
    LineText (xs ++ (sep ++ ys)) := by
  obtain ⟨hxc, hxne, hfirst, -⟩ := hx
  obtain ⟨hyc, hyne, -, hlast⟩ := hy
  refine ⟨by simp [hxc, hsep, hyc], by simp [hxne], ?_, ?_⟩
  · rwa [List.head_append_of_ne_nil hxne]
  · rwa [List.getLast_append_of_ne_nil _ (by simp [hyne]), List.getLast_append_of_ne_nil _ hyne]

theorem lineText_number {n : Nat} {x : List Char} (hx : x ∈ numberTexts n) : LineText x := by
  obtain ⟨hne, hplain⟩ := numberTexts_plain n hx
  refine lineText_of_plain hne fun c hc => ?_
  obtain ⟨hblank, -, hcomment, -⟩ := hplain c hc
  exact ⟨hblank, hcomment⟩

theorem comma_not_mem_number {n : Nat} {x : List Char} (hx : x ∈ numberTexts n) : ',' ∉ x := by
  obtain ⟨-, hplain⟩ := numberTexts_plain n hx
  intro hc
  obtain ⟨-, hcomma, -⟩ := hplain _ hc
  exact hcomma rfl

theorem spelling_ne_nil (op : AsmOp) : op.spelling ≠ [] := by
  cases op <;> simp [AsmOp.spelling]

theorem spelling_plain (op : AsmOp) : ∀ c ∈ op.spelling, isBlank c = false ∧ c ≠ ';' := by
  cases op <;> simp [AsmOp.spelling, isBlank]

theorem lineText_spelling (op : AsmOp) : LineText op.spelling :=
  lineText_of_plain (spelling_ne_nil op) (spelling_plain op)

theorem ofSpelling_spelling (op : AsmOp) : AsmOp.ofSpelling op.spelling = some op := by
  cases op <;> decide

/-- The name ends at the first blank. -/
theorem takeWhile_spelling (op : AsmOp) {cs : List Char} (hcs : ∀ c ∈ cs.head?, isBlank c = true) :
    (op.spelling ++ cs).takeWhile (fun c => !isBlank c) = op.spelling := by
  have hname : ∀ c ∈ op.spelling, (!isBlank c) = true := fun c hc => by simp [spelling_plain op c hc]
  rw [List.takeWhile_append_of_pos hname]
  cases cs with
  | nil => simp
  | cons c cs => simp [hcs c rfl]

theorem dropWhile_spelling (op : AsmOp) {cs : List Char} (hcs : ∀ c ∈ cs.head?, isBlank c = true) :
    (op.spelling ++ cs).dropWhile (fun c => !isBlank c) = cs := by
  have hsplit := List.takeWhile_append_dropWhile (p := fun c => !isBlank c) (l := op.spelling ++ cs)
  rw [takeWhile_spelling op hcs] at hsplit
  exact List.append_cancel_left hsplit

/-- A line is the statement of its name and the operands read after it (spec R71). -/
theorem assembleLine_eq_statement {op : AsmOp} {cs : List Char} {operands : List Nat}
    (hline : LineText (op.spelling ++ cs)) (hcs : ∀ c ∈ cs.head?, isBlank c = true)
    (hread : parseOperands cs = some operands) :
    assembleLine (op.spelling ++ cs) = assembleStatement op operands := by
  unfold assembleLine
  rw [hline.takeWhile_comment, hline.trimBlanks_eq]
  split
  · next hnil => exact absurd hnil hline.ne_nil
  · rw [takeWhile_spelling op hcs, dropWhile_spelling op hcs, ofSpelling_spelling, hread]

theorem assembleLine_spelling (op : AsmOp) : assembleLine op.spelling = assembleStatement op [] := by
  have hline := lineText_spelling op
  rw [← List.append_nil op.spelling] at hline ⊢
  exact assembleLine_eq_statement hline (by simp) rfl

theorem assembleLine_operands {op : AsmOp} {text : List Char} {operands : List Nat} (htext : LineText text)
    (hread : (splitAtChar ',' text).mapM (fun part => parseNumber (trimBlanks part)) = some operands) :
    assembleLine (op.spelling ++ ' ' :: text) = assembleStatement op operands := by
  have hline : LineText (op.spelling ++ ' ' :: text) :=
    (lineText_spelling op).append (sep := [' ']) (by decide) htext
  refine assembleLine_eq_statement hline (by simp [isBlank]) ?_
  unfold parseOperands
  rw [trimBlanks_space, htext.trimBlanks_eq]
  cases text with
  | nil => exact absurd rfl htext.ne_nil
  | cons c cs => exact hread

theorem parseNumber_trimBlanks {n : Nat} {x : List Char} (hx : x ∈ numberTexts n) :
    parseNumber (trimBlanks x) = some n := by
  rw [(lineText_number hx).trimBlanks_eq, parseNumber_numberTexts n hx]

theorem assembleLine_one_operand (op : AsmOp) (m : Nat) {x : List Char} (hx : x ∈ numberTexts m) :
    assembleLine (op.spelling ++ ' ' :: x) = assembleStatement op [m] := by
  apply assembleLine_operands (lineText_number hx)
  simp [splitAtChar_of_not_mem (comma_not_mem_number hx), parseNumber_trimBlanks hx]

theorem assembleLine_two_operands (op : AsmOp) (m n : Nat) {x y : List Char} (hx : x ∈ numberTexts m)
    (hy : y ∈ numberTexts n) :
    assembleLine (op.spelling ++ ' ' :: (x ++ ',' :: ' ' :: y)) = assembleStatement op [m, n] := by
  have hcomma : ',' ∉ ' ' :: y := by simp [comma_not_mem_number hy]
  apply assembleLine_operands ((lineText_number hx).append (sep := [',', ' ']) (by decide) (lineText_number hy))
  simp [splitAtChar_append _ (comma_not_mem_number hx), splitAtChar_of_not_mem hcomma, trimBlanks_space,
    parseNumber_trimBlanks hx, parseNumber_trimBlanks hy]

/-- What stands after a `;` is not read, whether or not an earlier `;` stands before it. -/
theorem assembleLine_comment (line comment : List Char) :
    assembleLine (line ++ ';' :: comment) = assembleLine line := by
  have hstrip : (line ++ ';' :: comment).takeWhile (fun c => c != ';') = line.takeWhile (fun c => c != ';') := by
    induction line with
    | nil => rfl
    | cons c line ih => simp [List.takeWhile_cons, ih]
  rw [assembleLine, assembleLine, hstrip]

theorem assemble_line_cons {line rest : List Char} {ws ws' : List CmdWord} (hline : '\n' ∉ line)
    (hws : assembleLine line = .words ws) (hws' : assemble rest = .words ws') :
    assemble (line ++ '\n' :: rest) = .words (ws ++ ws') := by
  rw [assemble] at hws' ⊢
  rw [splitAtChar_append rest hline]
  simp [assembleLines, hws, hws']

theorem assemble_operand_bytes (a b : Byte) : ∃ x y z : CmdWord,
    assembleStatement .setSeed [a.toNat, b.toNat] = .words [x] ∧ decode x = .instr (.setSeed a b) ∧
    assembleStatement .advanceBits [b.toNat] = .words [y] ∧ decode y = .instr (.advanceBits b) ∧
    assembleStatement .getBits [b.toNat] = .words [z] ∧ decode z = .instr (.getBits b) :=
  ⟨_, _, _, assembleTwo_toNat _ a b, encodedInstructionDecodesToItself _, assembleOne_toNat _ b,
    encodedInstructionDecodesToItself _, assembleOne_toNat _ b, encodedInstructionDecodesToItself _⟩

/-- Settles O60: the statements by `byteOperand` and `assembleRaw`, the text by reading back what was written. -/
theorem assemblerEncodesOrRefusesEveryOperand : Obligations.AssemblerEncodesOrRefusesEveryOperand := by
  refine ⟨⟨rfl, rfl, rfl, rfl, rfl⟩, assemble_operand_bytes, ?_, ?_, fun v => ⟨assembleRaw_of_le, assembleRaw_of_lt⟩,
    assembleLine_spelling, fun op m _ => assembleLine_one_operand op m,
    fun op m n _ hx _ hy => assembleLine_two_operands op m n hx hy, assembleLine_comment,
    fun _ _ _ _ => assemble_line_cons⟩
  · intro op hop m n h
    simp only [List.mem_cons, List.not_mem_nil, or_false] at hop
    rcases hop with rfl | rfl | rfl <;> exact assembleTwo_of_out_of_range _ h
  · intro op hop n hn
    simp only [List.mem_cons, List.not_mem_nil, or_false] at hop
    rcases hop with rfl | rfl | rfl <;> exact assembleOne_of_out_of_range _ hn

end Sys2Proof.Machine
end

/-! # Seed commands (spec 40_seed.md; O8 to O13) -/

section
/-! ## `init` and `set_seed`, and the illegal words of their opcodes (spec R100, R101, R102) -/
namespace Sys2Proof.Machine

theorem endsInError_of_unusedFieldNonzero {w : CmdWord} (hop : (opField w).toNat < 8) (hw : UnusedFieldNonzero w)
    (s : State) : EndsInError w s .illegalCommand := by
  obtain ⟨e, hd⟩ := (decode_illegal_iff hop).2 hw
  exact endsInError_of_runWord (runWord_of_decode_illegal hd s)

/-- A format-N opcode has one legal word: the one whose other fields are all zero (spec R63, R67). -/
theorem endsInError_of_formatN {w : CmdWord} {op : BitVec 4} (hf : opFormat op = some .n) (hop : opField w = op)
    (hne : w ≠ commandWord op 0#8 0#8) (s : State) : EndsInError w s .illegalCommand := by
  subst hop
  have hlegal : (opField w).toNat < 8 := (opFormat_ne_none_iff _).1 (by simp [hf])
  refine endsInError_of_unusedFieldNonzero hlegal (Classical.byContradiction fun hzero => hne ?_) s
  simp only [UnusedFieldNonzero, hf, true_and, not_or, Ne, Classical.not_not] at hzero
  obtain ⟨hrsv, ⟨ha, hb⟩, -⟩ := hzero
  have hw := commandWord_fields hrsv
  rw [ha, hb] at hw
  exact hw.symm

/-- A conforming seed parameter is nonzero in its low byte (spec R8, R9). -/
theorem seeds_loByte_ne_zero {p : Params} (hp : p.wellFormed = true) :
    p.defaultSeed.loByte ≠ 0x00#8 ∧ p.fallbackSeed.loByte ≠ 0x00#8 := by
  simp only [Params.wellFormed, Bool.and_eq_true, bne_iff_ne] at hp
  obtain ⟨hseeds, -⟩ := hp
  exact hseeds

/-- Settles O8: the word of `init` is the one legal word of its opcode; the low byte is the parameter's. -/
theorem initLoadsTheDefaultSeed : Obligations.InitLoadsTheDefaultSeed := by
  refine ⟨encodedInstructionDecodesToItself .init, fun w s hop hne => endsInError_of_formatN rfl hop hne s, fun s => ?_⟩
  exact ⟨_, exec_eq_effect .init s, rfl, rfl, rfl, complete_completedWith s _,
    fun hp => (seeds_loByte_ne_zero hp).1⟩

/-- Settles O9: both write the two bytes of `DEFAULT_SEED`, which reset does not change. -/
theorem initAndResetLoadTheSameSeed : Obligations.InitAndResetLoadTheSameSeed := by
  intro s e hr
  have hseed := hiByte_append_loByte s.params.defaultSeed
  exact ⟨_, _, _, clockEdge_of_rst hr s, exec_eq_effect .init s, exec_eq_effect .init s.applyReset, hseed, hseed,
    rfl, rfl, rfl, rfl, rfl, rfl, complete_completedWith s _, rfl, rfl⟩

/-- Settles O10: the words are encodings, so they decode; a nonzero RSV is refused before the operands. -/
theorem setSeedWritesBothBytes : Obligations.SetSeedWritesBothBytes := by
  refine ⟨fun hi lo => ?_, fun w s hop hrsv => ?_, fun hi lo s => ?_⟩
  · rw [← encode_setSeed]
    exact encodedInstructionDecodesToItself (.setSeed hi lo)
  · exact endsInError_of_unusedFieldNonzero (by rw [hop]; decide) (.inl hrsv) s
  · exact ⟨_, exec_eq_effect (.setSeed hi lo) s, rfl, rfl, rfl, complete_completedWith s _⟩

end Sys2Proof.Machine
end

section
/-! ## The zero-guard, and a seed whose low byte is zero (spec R103, R104, R105) -/
namespace Sys2Proof.Machine

theorem registerZero_iff (h x : Byte) : registerZero h x = true ↔ h = 0x00#8 ∧ x = 0x00#8 := by
  simp [registerZero]

/-- The 16-bit register is zero when both of its bytes are (spec R13). -/
theorem append_eq_zero_iff (h x : Byte) : h ++ x = 0x0000#16 ↔ h = 0x00#8 ∧ x = 0x00#8 := by
  constructor
  · intro hzero
    exact ⟨BitVec.extractLsb'_append_eq_left.symm.trans (congrArg Seed.hiByte hzero),
      BitVec.extractLsb'_append_eq_right.symm.trans (congrArg Seed.loByte hzero)⟩
  · rintro ⟨rfl, rfl⟩
    rfl

theorem exec_fixSeed_of_zero {s : State} (hzero : s.hi = 0x00#8 ∧ s.lo = 0x00#8) :
    exec .fixSeed s = .next (s.complete
      ⟨s.params.fallbackSeed.hiByte, s.params.fallbackSeed.loByte, s.lastValue, 0x00#8, .ok⟩) := by
  rw [exec_eq_effect, effectOf, if_pos ((registerZero_iff ..).2 hzero)]

theorem exec_fixSeed_of_not_zero {s : State} (hzero : ¬(s.hi = 0x00#8 ∧ s.lo = 0x00#8)) :
    exec .fixSeed s = .next (s.complete ⟨s.hi, s.lo, s.lastValue, 0x00#8, .ok⟩) := by
  rw [exec_eq_effect, effectOf, if_neg (mt (registerZero_iff ..).1 hzero)]

/-- Settles O12: by the two outcomes of the zero-guard's test. -/
theorem fixSeedReplacesOnlyTheAllZeroState : Obligations.FixSeedReplacesOnlyTheAllZeroState := by
  refine ⟨encodedInstructionDecodesToItself .fixSeed, fun w s hop hne => endsInError_of_formatN rfl hop hne s,
    fun s => ?_⟩
  by_cases hzero : s.hi = 0x00#8 ∧ s.lo = 0x00#8
  · exact ⟨_, exec_fixSeed_of_zero hzero, rfl, complete_completedWith s _, fun _ => ⟨rfl, rfl⟩, absurd hzero⟩
  · exact ⟨_, exec_fixSeed_of_not_zero hzero, rfl, complete_completedWith s _, (absurd · hzero), fun _ => ⟨rfl, rfl⟩⟩

/-- Settles O13: after the first `fix_seed` the register is nonzero, by the fallback's low byte where it was zero, so
the second one keeps it. -/
theorem fixSeedEstablishesANonzeroRegister : Obligations.FixSeedEstablishesANonzeroRegister := by
  intro s hp
  obtain ⟨-, hfallback⟩ := seeds_loByte_ne_zero hp
  simp only [Ne, append_eq_zero_iff]
  by_cases hzero : s.hi = 0x00#8 ∧ s.lo = 0x00#8
  · exact ⟨_, _, exec_fixSeed_of_zero hzero, exec_fixSeed_of_not_zero (hfallback ·.2), (hfallback ·.2), rfl,
      absurd hzero, fun _ => hiByte_append_loByte _⟩
  · exact ⟨_, _, exec_fixSeed_of_not_zero hzero, exec_fixSeed_of_not_zero hzero, hzero, rfl,
      fun _ => ⟨rfl, rfl, rfl⟩, (absurd · hzero)⟩

/-- From `lo = 0x00` nothing enters `hi`: `k` advances shift it right by `k` (spec R128). -/
theorem hiAfter_of_lo_zero (k : Nat) (h : Byte) : hiAfter k h 0x00#8 = h >>> k := by
  induction k generalizing h with
  | zero => rfl
  | succ k ih =>
    have hstep : advanceHi h 0x00#8 = h >>> 1 := BitVec.or_zero
    have hlo : advanceLo 0x00#8 = 0x00#8 := by decide
    rw [hiAfter_succ, hstep, hlo, ih, ← BitVec.shiftRight_add, Nat.add_comm]

/-- Settles O11: `set_seed` and `fix_seed` keep the byte in `hi`, and 8 advances shift it out. -/
theorem seedWithZeroLowByteDrains : Obligations.SeedWithZeroLowByteDrains := by
  intro h s
  have hset := exec_eq_effect (.setSeed h 0x00#8) s
  obtain ⟨u, hfix, hlast, -, -, hkeep⟩ := fixSeedReplacesOnlyTheAllZeroState.2.2
    (s.complete (effectOf s.params s.hi s.lo s.lastValue (.setSeed h 0x00#8)))
  refine ⟨_, u, _, hset, rfl, rfl, hfix, fun hne => ?_, exec_eq_effect (.advanceBits 8#8) _, ?_, loAfter_of_zero 8⟩
  · obtain ⟨hhi, hlo⟩ := hkeep fun hzero => hne hzero.1
    exact ⟨hhi, hlo, hlast⟩
  · exact (hiAfter_of_lo_zero 8 h).trans (BitVec.ushiftRight_eq_zero (Nat.le_refl 8))

end Sys2Proof.Machine
end

/-! # Advance commands and the laws of the advance (spec 41_advance.md; O15 to O24) -/

section
/-! ## The output sequence, and the register as a window on it (spec R121, R124, R125, R126) -/
namespace Sys2Proof.Machine

@[simp] theorem State.advanceTimes_hi (k : Nat) (s : State) : (s.advanceTimes k).hi = hiAfter k s.hi s.lo := by
  rw [State.advanceTimes_eq, State.writeRegister_hi]

@[simp] theorem State.advanceTimes_lo (k : Nat) (s : State) : (s.advanceTimes k).lo = loAfter k s.lo := by
  rw [State.advanceTimes_eq, State.writeRegister_lo]

theorem bit_eq_iff (b c : Bit) : b = c ↔ b.getLsbD 0 = c.getLsbD 0 := by
  revert b c; decide

theorem loAfter_succ_last (k : Nat) (x : Byte) : loAfter (k + 1) x = advanceLo (loAfter k x) :=
  loAfter_add k 1 x

theorem outputSeq_succ (x : Byte) (t : Nat) : outputSeq x (t + 1) = outputSeq (advanceLo x) t := rfl

theorem outputSeq_loAfter (k : Nat) (x : Byte) (t : Nat) : outputSeq (loAfter k x) t = outputSeq x (k + t) := by
  rw [outputSeq, outputSeq, loAfter_add]

/-- The first 8 output bits are the bits of the starting `lo` (spec R125). -/
theorem outputSeq_getLsbD_of_lt (x : Byte) {i : Nat} (hi : i < 8) :
    (outputSeq x i).getLsbD 0 = x.getLsbD i := by
  induction i generalizing x with
  | zero => exact bitAt_getLsbD x 0
  | succ i ih => rw [outputSeq_succ, ih _ (by omega), advanceLo_getLsbD_low _ (by omega)]

/-- `lo` is the window of the next 8 output bits (spec R125). -/
theorem loAfter_getLsbD (t : Nat) (x : Byte) {i : Nat} (hi : i < 8) :
    (loAfter t x).getLsbD i = (outputSeq x (t + i)).getLsbD 0 := by
  rw [← outputSeq_loAfter, outputSeq_getLsbD_of_lt _ hi]

/-- The bit entering `lo` is emitted 8 advances later, so the taps are a recurrence (spec R125). -/
theorem outputSeq_recurrence (x : Byte) (t : Nat) :
    outputSeq x (t + 8) =
      outputSeq x t ^^^ outputSeq x (t + 2) ^^^ outputSeq x (t + 3) ^^^ outputSeq x (t + 5) := by
  have hentering := advanceLo_getLsbD_seven (loAfter t x)
  rw [← loAfter_succ_last, loAfter_getLsbD _ _ (by omega), loAfter_getLsbD _ _ (by omega),
    loAfter_getLsbD _ _ (by omega), loAfter_getLsbD _ _ (by omega), loAfter_getLsbD _ _ (by omega)] at hentering
  simpa only [bit_eq_iff, BitVec.getLsbD_xor, Nat.add_assoc, Nat.reduceAdd, Nat.add_zero] using hentering

/-- ONE LAW FOR `hi`: its bits move down, and the output bits follow them from the top (spec R124, R126). -/
theorem hiAfter_getLsbD (k : Nat) (h x : Byte) {i : Nat} (hi : i < 8) :
    (hiAfter k h x).getLsbD i =
      if i + k < 8 then h.getLsbD (i + k) else (outputSeq x (i + k - 8)).getLsbD 0 := by
  induction k generalizing h x with
  | zero => rw [hiAfter_zero, Nat.add_zero, if_pos hi]
  | succ k ih =>
    rw [hiAfter_succ, ih, ← Nat.add_assoc]
    rcases Nat.lt_trichotomy (i + k) 7 with hlow | htop | hpast
    · rw [if_pos (by omega), if_pos (by omega), advanceHi_getLsbD_low _ _ hlow]
    · rw [htop, if_pos (by omega), if_neg (by omega), advanceHi_getLsbD_seven, outputSeq_getLsbD_of_lt _ (by omega)]
    · rw [if_neg (by omega), if_neg (by omega), ← outputSeq_succ]
      congr 2; omega

/-- From 8 advances on, `hi` is the `lo` of 8 advances earlier (spec R126). -/
theorem hiAfter_add_eight (k : Nat) (h x : Byte) : hiAfter (k + 8) h x = loAfter k x := by
  apply BitVec.eq_of_getLsbD_eq
  intro i hi
  rw [hiAfter_getLsbD _ _ _ hi, if_neg (by omega), loAfter_getLsbD _ _ hi]
  congr 2; omega

/-- Up to 8 advances, the low bits of `lo` move into the top of `hi` (spec R126). -/
theorem hiAfter_of_le_eight {k : Nat} (hk : k ≤ 8) (h x : Byte) :
    hiAfter k h x = (h >>> k) ||| ((x &&& BitVec.ofNat 8 (2 ^ k - 1)) <<< (8 - k)) := by
  apply BitVec.eq_of_getLsbD_eq
  intro i hi
  rw [hiAfter_getLsbD _ _ _ hi, BitVec.getLsbD_or, BitVec.getLsbD_ushiftRight, BitVec.getLsbD_shiftLeft,
    BitVec.getLsbD_and, BitVec.getLsbD_ofNat, Nat.testBit_two_pow_sub_one]
  by_cases hlow : i + k < 8
  · have hout : i < 8 - k := by omega
    rw [if_pos hlow, Nat.add_comm i k]
    simp [hout]
  · have hin : ¬i < 8 - k := by omega
    have hpos : i - (8 - k) = i + k - 8 := by omega
    have hlt : i + k - 8 < 8 := by omega
    have hmask : i + k - 8 < k := by omega
    rw [if_neg hlow, outputSeq_getLsbD_of_lt _ hlt, BitVec.getLsbD_of_ge h (k + i) (by omega), hpos]
    simp [hi, hin, hlt, hmask]

/-- Settles O15: the bits of each new byte, and `advance` as a write of the register pair. -/
theorem stepShiftsBothBytesWithCrossFeed : Obligations.StepShiftsBothBytesWithCrossFeed := fun s =>
  ⟨advanceLo_getLsbD_seven s.lo, fun _ hi => advanceLo_getLsbD_low s.lo hi, advanceHi_getLsbD_seven s.hi s.lo,
    fun _ hi => advanceHi_getLsbD_low s.hi s.lo hi, bitAt_getLsbD s.lo 0, rfl⟩

/-- Settles O20: the first 8 bits, the recurrence and the window. -/
theorem outputSequenceObeysTheRecurrence : Obligations.OutputSequenceObeysTheRecurrence := by
  intro s t
  rw [State.advanceTimes_lo]
  exact ⟨rfl, rfl, fun ht => outputSeq_getLsbD_of_lt s.lo (by omega), outputSeq_recurrence s.lo t,
    fun _ hi => loAfter_getLsbD t s.lo hi⟩

/-- Settles O21: `hi` up to 8 advances, and the earlier `lo` from then on. -/
theorem registerAfterKAdvances : Obligations.RegisterAfterKAdvances := by
  intro s
  refine ⟨fun k hk => (State.advanceTimes_hi k s).trans (hiAfter_of_le_eight hk s.hi s.lo),
    (State.advanceTimes_hi 8 s).trans (hiAfter_add_eight 0 s.hi s.lo), State.advanceTimes_lo 8 s, fun k hk => ?_⟩
  obtain ⟨m, rfl⟩ := Nat.exists_eq_add_of_le' hk
  rw [State.advanceTimes_hi, State.advanceTimes_lo, hiAfter_add_eight, Nat.add_sub_cancel]

/-- Settles O18: `lo` after `k` advances is `L^k` of the old `lo`, and `hi` the `lo` of 8 advances earlier. -/
theorem hiNeverAffectsTheOutputAndRecordsIt : Obligations.HiNeverAffectsTheOutputAndRecordsIt := by
  constructor
  · intro k s s' hlo
    rw [State.advanceTimes_lo, State.advanceTimes_lo, hlo]
    exact ⟨rfl, rfl⟩
  · intro k s i hi
    rw [State.advanceTimes_hi, hiAfter_add_eight, loAfter_getLsbD k s.lo hi]

/-- Of a command's effect, `hi` decides the new `hi` alone, `fix_seed` apart (spec R21, R124). -/
theorem effectOf_ignores_hi (p : Params) (h h' x v : Byte) {i : Instr} (hfix : i ≠ .fixSeed) :
    ∃ g, effectOf p h' x v i = { effectOf p h x v i with hi := g } := by
  cases i with
  | fixSeed => exact absurd rfl hfix
  | getBits n =>
    by_cases hn : countInRange (countOperand n) = true
    · exact ⟨hiAfter (countOperand n) h' x, by simp only [effectOf, hn, if_true]⟩
    · exact ⟨h', by simp only [effectOf, hn]; rfl⟩
  | _ => exact ⟨_, rfl⟩

/-- Settles O19: the effect is the same but for `hi`. -/
theorem hiNeverReachesAResponse : Obligations.HiNeverReachesAResponse := by
  intro i s h hfix
  refine ⟨_, _, exec_eq_effect i s, exec_eq_effect i { s with hi := h }, ?_⟩
  obtain ⟨g, hg⟩ := effectOf_ignores_hi s.params s.hi h s.lo s.lastValue hfix
  simp only [State.complete_lo, State.complete_lastValue, State.complete_rspData, State.complete_rspStatus, hg,
    and_self]

end Sys2Proof.Machine
end

section
/-! ## The map on `lo`: its inverse, its cycle, and the ones of a period (spec R127) -/
namespace Sys2Proof.Machine

/-- Two bytes are equal when the bits that a shift moves agree, and the bit that enters at the top. -/
theorem byte_ext_top {x y : Byte} (hlow : ∀ i, i < 7 → x.getLsbD i = y.getLsbD i) (htop : x.getLsbD 7 = y.getLsbD 7) :
    x = y := by
  apply BitVec.eq_of_getLsbD_eq
  intro i hi
  rcases Nat.lt_succ_iff_lt_or_eq.1 hi with hlt | rfl
  · exact hlow i hlt
  · exact htop

/-- The inverse moves the bits of `lo` back up (spec R127). -/
theorem advanceLoInverse_getLsbD_succ (y : Byte) {i : Nat} (hi : i < 7) :
    (advanceLoInverse y).getLsbD (i + 1) = y.getLsbD i := by
  have hmask : ∀ i, i < 7 → (0xFE#8).getLsbD (i + 1) = true := by decide
  have hlt : i + 1 < 8 := by omega
  rw [advanceLoInverse, BitVec.getLsbD_or, BitVec.getLsbD_and, hmask i hi, BitVec.getLsbD_shiftLeft, zext8_getLsbD]
  simp [hlt]

/-- The bit that had left `lo` is the feedback without its other three taps (spec R127). -/
theorem advanceLoInverse_getLsbD_zero (y : Byte) :
    (advanceLoInverse y).getLsbD 0 = (y.getLsbD 7 ^^ y.getLsbD 1 ^^ y.getLsbD 2 ^^ y.getLsbD 4) := by
  simp [advanceLoInverse]

theorem advanceLoInverse_advanceLo (x : Byte) : advanceLoInverse (advanceLo x) = x := by
  apply BitVec.eq_of_getLsbD_eq
  intro i hi
  cases i with
  | zero =>
    rw [advanceLoInverse_getLsbD_zero, advanceLo_getLsbD_seven, advanceLo_getLsbD_low _ (by omega),
      advanceLo_getLsbD_low _ (by omega), advanceLo_getLsbD_low _ (by omega)]
    grind
  | succ i => rw [advanceLoInverse_getLsbD_succ _ (by omega), advanceLo_getLsbD_low _ (by omega)]

theorem advanceLo_advanceLoInverse (y : Byte) : advanceLo (advanceLoInverse y) = y := by
  apply byte_ext_top
  · intro i hi
    rw [advanceLo_getLsbD_low _ hi, advanceLoInverse_getLsbD_succ _ hi]
  · rw [advanceLo_getLsbD_seven, advanceLoInverse_getLsbD_zero, advanceLoInverse_getLsbD_succ _ (by omega),
      advanceLoInverse_getLsbD_succ _ (by omega), advanceLoInverse_getLsbD_succ _ (by omega)]
    grind

theorem advanceLo_injective : Function.Injective advanceLo :=
  Function.LeftInverse.injective advanceLoInverse_advanceLo

/-- Every value of `lo`, 0x00 included, returns after 255 advances (spec R127): it is 0x00, or on the cycle of 0x01. -/
theorem loAfter_255 (x : Byte) : loAfter 255 x = x := by
  by_cases hx : x = 0x00#8
  · rw [hx, loAfter_of_zero]
  · obtain ⟨j, -, rfl⟩ := exists_loAfter_one_eq hx
    rw [← loAfter_add, Nat.add_comm, loAfter_add, loAfter_255_one]

/-- The nonzero values are one cycle: from the place of `x` after 0x01 on to that of `y`, round the end if need be. -/
theorem exists_loAfter_eq {x y : Byte} (hx : x ≠ 0x00#8) (hy : y ≠ 0x00#8) : ∃ k, k < 255 ∧ loAfter k x = y := by
  obtain ⟨j, hj, rfl⟩ := exists_loAfter_one_eq hx
  obtain ⟨m, hm, rfl⟩ := exists_loAfter_one_eq hy
  rcases Nat.lt_or_ge m j with hbefore | hafter
  · refine ⟨255 + m - j, by omega, ?_⟩
    rw [← loAfter_add, Nat.add_sub_cancel' (by omega), loAfter_add, loAfter_255_one]
  · exact ⟨m - j, by omega, by rw [← loAfter_add, Nat.add_sub_cancel' hafter]⟩

/-- The ones among the first `n` output bits from `x`, counted in one pass over the values of `lo`. -/
def onesEmitted : Nat → Byte → Nat
  | 0, _ => 0
  | n + 1, x => onesEmitted n (advanceLo x) + (x.getLsbD 0).toNat

/-- The count of ones goes on at its far end too. -/
theorem onesEmitted_succ_last (n : Nat) (x : Byte) :
    onesEmitted (n + 1) x = onesEmitted n x + ((loAfter n x).getLsbD 0).toNat := by
  induction n generalizing x with
  | zero => rfl
  | succ n ih => rw [onesEmitted, ih, onesEmitted, loAfter_succ, Nat.add_right_comm]

theorem countP_outputSeq (n : Nat) (x : Byte) :
    (List.range n).countP (fun t => outputSeq x t == 1#1) = onesEmitted n x := by
  induction n with
  | zero => rfl
  | succ n ih =>
    rw [List.range_succ, List.countP_append, ih, onesEmitted_succ_last, ← outputSeq_getLsbD]
    rcases BitVec.eq_zero_or_eq_one (outputSeq x n) with hbit | hbit
    · simp [hbit]
    · simp [hbit]

/-- A period that starts one advance later holds the same ones: the bit it drops at its start, it gains at its end. -/
theorem onesEmitted_period_advanceLo (x : Byte) : onesEmitted 255 (advanceLo x) = onesEmitted 255 x := by
  have hlast := onesEmitted_succ_last 255 x
  rw [loAfter_255] at hlast
  exact Nat.add_right_cancel hlast

theorem onesEmitted_period_loAfter (k : Nat) (x : Byte) : onesEmitted 255 (loAfter k x) = onesEmitted 255 x := by
  induction k generalizing x with
  | zero => rfl
  | succ k ih => rw [loAfter_succ, ih, onesEmitted_period_advanceLo]

set_option maxRecDepth 4000 in
theorem onesEmitted_period_one : onesEmitted 255 0x01#8 = 128 := by decide

/-- Settles O22: the inverse bit by bit, the cycle of 0x01, and the ones of a period, the same from anywhere on it. -/
theorem mapOnLoIsOneCycleOfLength255 : Obligations.MapOnLoIsOneCycleOfLength255 := by
  refine ⟨fun x => ⟨advanceLoInverse_advanceLo x, advanceLo_advanceLoInverse x⟩, by decide,
    fun x y hx hy => exists_loAfter_eq hx hy,
    fun x hx => ⟨loAfter_255 x, fun k hpos hlt => loAfter_ne_self hx hpos hlt⟩, fun x hx => ?_, by decide⟩
  obtain ⟨j, -, rfl⟩ := exists_loAfter_one_eq hx
  rw [countP_outputSeq, onesEmitted_period_loAfter, onesEmitted_period_one]

end Sys2Proof.Machine
end

section
/-! ## The zero trap (spec R128) -/
namespace Sys2Proof.Machine

theorem outputSeq_of_zero (t : Nat) : outputSeq 0x00#8 t = 0#1 := by
  rw [outputSeq, loAfter_of_zero]
  rfl

/-- `lo` stays nonzero: only 0x00 goes to 0x00 (spec R127, R128). -/
theorem loAfter_ne_zero {x : Byte} (hx : x ≠ 0x00#8) (k : Nat) : loAfter k x ≠ 0x00#8 := by
  induction k generalizing x with
  | zero => exact hx
  | succ k ih => exact ih (advanceLo_injective.ne hx)

theorem exists_getLsbD_of_ne_zero {x : Byte} (hx : x ≠ 0x00#8) : ∃ i, i < 8 ∧ x.getLsbD i = true := by
  refine Classical.byContradiction fun hnone => hx (BitVec.eq_of_getLsbD_eq fun i hi => ?_)
  rw [BitVec.getLsbD_zero]
  exact Bool.eq_false_iff.2 fun hbit => hnone ⟨i, hi, hbit⟩

/-- One test of `bitLength`, from above: the bit it names, where set, stands below `k`. -/
theorem bitTest_le {h : Byte} {j b k : Nat} (hset : h.getLsbD j = true → j < k) (helse : b ≤ k) :
    (if h.getLsbD j = true then j + 1 else b) ≤ k := by
  split
  · next hj => exact hset hj
  · exact helse

/-- One test of `bitLength`, from below: where it fails, a set bit that is not above it stands below it. -/
theorem lt_bitTest {h : Byte} {i j b : Nat} (hbit : h.getLsbD i = true) (hlt : i < j + 1) (helse : i < j → i < b) :
    i < if h.getLsbD j = true then j + 1 else b := by
  split
  · exact hlt
  · next hj => exact helse (Nat.lt_of_le_of_ne (Nat.le_of_lt_succ hlt) fun hij => hj (hij ▸ hbit))

theorem bitLength_le {h : Byte} {k : Nat} (hk : ∀ i, k ≤ i → h.getLsbD i = false) : bitLength h ≤ k := by
  have hbelow (i : Nat) (hbit : h.getLsbD i = true) : i < k :=
    Nat.lt_of_not_le fun hle => Bool.false_ne_true ((hk i hle).symm.trans hbit)
  exact bitTest_le (hbelow 7) <| bitTest_le (hbelow 6) <| bitTest_le (hbelow 5) <| bitTest_le (hbelow 4) <|
    bitTest_le (hbelow 3) <| bitTest_le (hbelow 2) <| bitTest_le (hbelow 1) <| bitTest_le (hbelow 0) <| Nat.zero_le k

theorem lt_bitLength {h : Byte} {i : Nat} (hbit : h.getLsbD i = true) : i < bitLength h :=
  lt_bitTest hbit (BitVec.lt_of_getLsbD hbit) fun h7 => lt_bitTest hbit h7 fun h6 => lt_bitTest hbit h6 fun h5 =>
    lt_bitTest hbit h5 fun h4 => lt_bitTest hbit h4 fun h3 => lt_bitTest hbit h3 fun h2 =>
    lt_bitTest hbit h2 fun h1 => lt_bitTest hbit h1 fun h0 => absurd h0 (Nat.not_lt_zero i)

theorem shiftRight_eq_zero_iff (h : Byte) (k : Nat) : h >>> k = 0x00#8 ↔ bitLength h ≤ k := by
  constructor
  · intro hzero
    refine bitLength_le fun i hi => ?_
    rw [← Nat.add_sub_cancel' hi, ← BitVec.getLsbD_ushiftRight, hzero, BitVec.getLsbD_zero]
  · intro hle
    refine BitVec.eq_of_getLsbD_eq fun i _ => ?_
    rw [BitVec.getLsbD_ushiftRight, BitVec.getLsbD_zero]
    exact Bool.eq_false_iff.2 fun hbit => by have := lt_bitLength hbit; omega

/-- Settles O23: from `lo = 0x00` only the bits of `hi` move, and a nonzero `lo` shows a set bit within 8 advances. -/
theorem zeroLowByteIsTheOnlyTrap : Obligations.ZeroLowByteIsTheOnlyTrap := by
  simp only [Obligations.ZeroLowByteIsTheOnlyTrap, State.advanceTimes_hi, State.advanceTimes_lo]
  refine ⟨fun s k hhi hlo => ?_, fun s k hlo => ?_, fun s k hlo => ⟨loAfter_ne_zero hlo k, ?_⟩⟩
  · rw [hhi, hlo]
    exact ⟨hiAfter_of_zero k, loAfter_of_zero k, outputSeq_of_zero k⟩
  · rw [hlo, hiAfter_of_lo_zero]
    exact ⟨rfl, loAfter_of_zero k, outputSeq_of_zero k, rfl, shiftRight_eq_zero_iff s.hi k⟩
  · obtain ⟨i, hi, hbit⟩ := exists_getLsbD_of_ne_zero (loAfter_ne_zero hlo k)
    exact ⟨i, hi, (bit_eq_iff _ 1#1).2 ((loAfter_getLsbD k s.lo hi).symm.trans hbit)⟩

end Sys2Proof.Machine
end

section
/-! ## Which states have a predecessor, and which recur (spec R129) -/
namespace Sys2Proof.Machine

/-- Two states have the same successor when they differ in `hi[0]` alone, the bit that an advance discards. -/
theorem advance_eq_iff (h x h' x' : Byte) :
    (advanceHi h x = advanceHi h' x' ∧ advanceLo x = advanceLo x') ↔
      (x = x' ∧ ∀ i, 1 ≤ i → h.getLsbD i = h'.getLsbD i) := by
  rw [advanceLo_injective.eq_iff, and_comm, and_congr_right_iff]
  rintro rfl
  constructor
  · intro heq i hi
    obtain ⟨j, rfl⟩ := Nat.exists_eq_add_of_le' hi
    rcases Nat.lt_or_ge j 7 with hlow | hpast
    · rw [← advanceHi_getLsbD_low h x hlow, heq, advanceHi_getLsbD_low h' x hlow]
    · rw [BitVec.getLsbD_of_ge h _ (by omega), BitVec.getLsbD_of_ge h' _ (by omega)]
  · intro hbits
    apply byte_ext_top
    · intro i hi
      rw [advanceHi_getLsbD_low h x hi, advanceHi_getLsbD_low h' x hi, hbits _ (by omega)]
    · rw [advanceHi_getLsbD_seven, advanceHi_getLsbD_seven]

/-- A predecessor's `lo` is the inverse of `lo`, and its `hi` is `hi` moved back up: the bit above must agree. -/
theorem exists_predecessor_iff (h x : Byte) :
    (∃ h' x', advanceHi h' x' = h ∧ advanceLo x' = x) ↔ h.getLsbD 7 = (advanceLoInverse x).getLsbD 0 := by
  constructor
  · rintro ⟨h', x', rfl, rfl⟩
    rw [advanceHi_getLsbD_seven, advanceLoInverse_advanceLo]
  · intro htop
    refine ⟨h <<< 1, advanceLoInverse x, byte_ext_top (fun i hi => ?_) ?_, advanceLo_advanceLoInverse x⟩
    · have hlt : i + 1 < 8 := by omega
      rw [advanceHi_getLsbD_low _ _ hi, BitVec.getLsbD_shiftLeft]
      simp [hlt]
    · rw [advanceHi_getLsbD_seven, htop]

/-- A state that returns after `k` advances returns after every multiple of `k`. -/
theorem after_mul_of_return {k : Nat} {h x : Byte} (hhi : hiAfter k h x = h) (hlo : loAfter k x = x) (m : Nat) :
    hiAfter (k * m) h x = h ∧ loAfter (k * m) x = x := by
  induction m with
  | zero => exact ⟨rfl, rfl⟩
  | succ m ih => rw [Nat.mul_succ, Nat.add_comm, hiAfter_add, loAfter_add, hhi, hlo]; exact ih

/-- A state whose `lo` is `hi` advanced 8 times has its `hi` back after 255 advances: `hi` is then the `lo` of 8
advances earlier, and that is the old `hi` advanced 8 + 247 times. -/
theorem hiAfter_255_loAfter_eight (h : Byte) : hiAfter 255 h (loAfter 8 h) = h := by
  rw [hiAfter_add_eight 247, ← loAfter_add, loAfter_255]

/-- The cyclic states (spec R129): after 8 rounds of its cycle, `hi` is the `lo` of 8 advances before `lo`. -/
theorem cyclic_iff (h x : Byte) : Cyclic h x ↔ x = loAfter 8 h := by
  constructor
  · rintro ⟨k, hpos, hhi, hlo⟩
    obtain ⟨hhi8, hlo8⟩ := after_mul_of_return hhi hlo 8
    obtain ⟨m, hm⟩ : ∃ m, k * 8 = m + 8 := ⟨k * 8 - 8, by omega⟩
    rw [hm, hiAfter_add_eight] at hhi8
    rw [hm, loAfter_add, hhi8] at hlo8
    exact hlo8.symm
  · rintro rfl
    exact ⟨255, by omega, hiAfter_255_loAfter_eight h, loAfter_255 _⟩

/-- Settles O24: the discarded bit, the predecessor, and the cyclic states; 8 advances move `lo` into `hi`. -/
theorem cyclicStatesAreThoseWhoseHiPrecedesLo : Obligations.CyclicStatesAreThoseWhoseHiPrecedesLo := by
  refine ⟨advance_eq_iff, exists_predecessor_iff, cyclic_iff, fun s => ?_⟩
  rw [State.advanceTimes_hi, State.advanceTimes_lo, hiAfter_add_eight 0, cyclic_iff, loAfter_zero]

end Sys2Proof.Machine
end

section
/-! ## `advance_bit` and `advance_bits` (spec R122, R123) -/
namespace Sys2Proof.Machine

theorem zext8_eq_ite (b : Bit) : zext8 b = if b.getLsbD 0 then 0x01#8 else 0x00#8 := by
  revert b; decide

/-- Settles O16: the one legal word of the opcode, one advance, and the output bit as a byte. -/
theorem advanceBitReturnsTheOutputBit : Obligations.AdvanceBitReturnsTheOutputBit := by
  refine ⟨encodedInstructionDecodesToItself .advanceBit, fun w s hop hne => endsInError_of_formatN rfl hop hne s,
    fun s => ⟨_, exec_eq_effect .advanceBit s, rfl, rfl, rfl, ?_, fun hlo => ?_⟩⟩
  · have hdata : zext8 (outputBit s.lo) = if s.lo.getLsbD 0 then 0x01#8 else 0x00#8 := by
      rw [zext8_eq_ite, outputBit, bitAt_getLsbD]
    rw [← hdata]
    exact complete_completedWith s _
  · simp only [effectOf, State.complete_hi, State.complete_lo, State.complete_rspData, hlo]
    exact ⟨loAfter_of_zero 1, hiAfter_of_lo_zero 1 s.hi, rfl⟩

/-- A cyclic state is back after 255 advances, whatever the length of its cycle (spec R123, R129). -/
theorem after_255_of_cyclic {h x : Byte} (hcyclic : Cyclic h x) : hiAfter 255 h x = h ∧ loAfter 255 x = x := by
  obtain rfl := (cyclic_iff h x).1 hcyclic
  exact ⟨hiAfter_255_loAfter_eight h, loAfter_255 _⟩

/-- Settles O17: the effect is that of `n` advances, which add up; the zero state stays, and a cyclic state is back
after 255. -/
theorem advanceBitsAdvancesExactlyNTimes : Obligations.AdvanceBitsAdvancesExactlyNTimes := by
  refine ⟨fun n => ?_, fun w s hop hfield => ?_, fun n s => ?_, fun a b s => ?_⟩
  · rw [← encode_advanceBits]
    exact encodedInstructionDecodesToItself (.advanceBits n)
  · have hformat : opFormat (opField w) = some .c := by rw [hop]; rfl
    refine endsInError_of_unusedFieldNonzero (by rw [hop]; decide) ?_ s
    exact hfield.imp_right fun ha => .inr ⟨hformat, ha⟩
  · refine ⟨_, exec_eq_effect (.advanceBits n) s, rfl, rfl, rfl, complete_completedWith s _, ?_, fun hhi hlo => ?_, ?_⟩
    · rintro rfl
      exact ⟨rfl, rfl, rfl⟩
    · simp only [SameGenerator, effectOf, State.complete_hi, State.complete_lo, State.complete_lastValue, hhi, hlo]
      exact ⟨hiAfter_of_zero _, loAfter_of_zero _, trivial⟩
    · intro hn hcyclic
      have hcount : n.toNat = 255 := by rw [hn]; rfl
      obtain ⟨hhi, hlo⟩ := after_255_of_cyclic hcyclic
      rw [← hcount] at hhi hlo
      exact ⟨hhi, hlo, rfl⟩
  · rw [State.advanceTimes_hi, State.advanceTimes_lo, hiAfter_add, loAfter_add]
    exact ⟨_, _, exec_eq_effect (.advanceBits a) s, exec_eq_effect (.advanceBits b) _, rfl, rfl⟩

end Sys2Proof.Machine
end

/-! # Output commands (spec 42_output.md; O25 to O30, O32) -/

section
/-! ## What each output command leaves, in closed form (spec R140 to R144) -/
namespace Sys2Proof.Machine

theorem zext8_outputBit (x : Byte) : zext8 (outputBit x) = if x.getLsbD 0 then 0x01#8 else 0x00#8 := by
  rw [zext8_eq_ite, outputBit, bitAt_getLsbD]

/-- A format-C word is illegal where RSV or A is nonzero (spec R63, R67). -/
theorem endsInError_of_formatC {w : CmdWord} {op : BitVec 4} (hf : opFormat op = some .c) (hop : opField w = op)
    (hfield : rsvField w ≠ 0#4 ∨ aField w ≠ 0#8) (s : State) : EndsInError w s .illegalCommand := by
  subst hop
  have hlegal : (opField w).toNat < 8 := (opFormat_ne_none_iff _).1 (by simp [hf])
  exact endsInError_of_unusedFieldNonzero hlegal (hfield.imp_right fun ha => .inr ⟨hf, ha⟩) s

/-- The low `n` bits of a byte (spec R143). -/
def lowBits (n : Nat) (x : Byte) : Byte := x &&& BitVec.ofNat 8 (2 ^ n - 1)

theorem lowBits_getLsbD (n : Nat) (x : Byte) (i : Nat) :
    (lowBits n x).getLsbD i = (decide (i < n) && x.getLsbD i) := by
  rw [lowBits, BitVec.getLsbD_and, BitVec.getLsbD_ofNat, Nat.testBit_two_pow_sub_one]
  by_cases hi : i < 8
  · simp [hi, Bool.and_comm]
  · simp [BitVec.getLsbD_of_ge x i (by omega)]

/-- The packing loop collects the low bits of `lo`: they are the first output bits, in order (spec R125, R143). -/
theorem packBits_eq_lowBits {n : Nat} (hn : n ≤ 8) (s : State) :
    (State.packBits n 0 0x00#8 s).1 = lowBits n s.lo := by
  apply BitVec.eq_of_getLsbD_eq
  intro i hi
  rw [State.packBits_byte_getLsbD _ _ _ _ (by omega), lowBits_getLsbD, Nat.sub_zero, outputSeq_getLsbD_of_lt _ hi]
  simp

/-- 8 advances move the snapshot into `hi`, so `hi` ends as the byte delivered (spec R126, R142). -/
theorem exec_getByte (s : State) :
    exec .getByte s = .next (s.complete ⟨s.lo, loAfter 8 s.lo, s.lo, s.lo, .ok⟩) := by
  rw [exec_eq_effect, effectOf, hiAfter_add_eight 0, loAfter_zero]

theorem exec_getBits_of_inRange {n : Byte} (hn : 1 ≤ n.toNat ∧ n.toNat ≤ 8) (s : State) :
    exec (.getBits n) s = .next (s.complete ⟨hiAfter n.toNat s.hi s.lo, loAfter n.toNat s.lo,
      lowBits n.toNat s.lo, lowBits n.toNat s.lo, .ok⟩) := by
  rw [exec_eq_effect, effectOf, countOperand, if_pos ((countInRange_iff n.toNat).2 hn), ← State.packBits_byte,
    packBits_eq_lowBits hn.2]

/-- One advance packs one bit, the output bit (spec R141). -/
theorem exec_getBits_one (s : State) : exec (.getBits 1#8) s = exec .getBit s := by
  have hpacked : packedByte 1 0 0x00#8 s.lo = zext8 (outputBit s.lo) :=
    BitVec.zero_or.trans (BitVec.shiftLeft_zero _)
  rw [exec_eq_effect, exec_eq_effect, effectOf, effectOf, if_pos (by decide), ← hpacked]
  rfl

/-- All 8 low bits of `lo` are `lo` itself, the snapshot (spec R144). -/
theorem exec_getBits_eight (s : State) : exec (.getBits 8#8) s = exec .getByte s := by
  have hall : lowBits 8 s.lo = s.lo := BitVec.and_allOnes
  rw [exec_getBits_of_inRange (by decide), exec_getByte, BitVec.toNat_ofNat, hiAfter_add_eight 0, loAfter_zero, hall]

end Sys2Proof.Machine
end

section
/-! ## `get_bit`, `get_bits` and `get_byte` (spec R140 to R145) -/
namespace Sys2Proof.Machine

/-- Settles O25: the effect is that of `advance_bit`, with the output bit in `last_value` too. -/
theorem getBitDeliversTheOutputBit : Obligations.GetBitDeliversTheOutputBit := by
  refine ⟨encodedInstructionDecodesToItself .getBit, fun w s hop hne => endsInError_of_formatN rfl hop hne s,
    fun s => ⟨_, _, exec_eq_effect .getBit s, rfl, rfl, rfl, ?_, exec_eq_effect .advanceBit s, rfl⟩⟩
  rw [← zext8_outputBit]
  exact complete_completedWith s _

/-- Settles O26: the packed byte is the low bits of `lo`, each of them an output bit; out of range is the error. -/
theorem getBitsPacksTheProducedBits : Obligations.GetBitsPacksTheProducedBits := by
  refine ⟨fun n => ?_, fun w s hop hfield => endsInError_of_formatC rfl hop hfield s, fun n s hpos hle => ?_,
    fun n s hout => ?_, fun s => ⟨exec_getBits_one s, exec_getBits_eight s⟩⟩
  · rw [← encode_getBits]
    exact encodedInstructionDecodesToItself (.getBits n)
  · refine ⟨_, lowBits n.toNat s.lo, exec_getBits_of_inRange ⟨hpos, hle⟩ s, rfl, rfl, fun i hi => ?_,
      fun i hi => ?_, rfl, complete_completedWith s _⟩
    · rw [lowBits_getLsbD, decide_eq_true hi, Bool.true_and, outputSeq_getLsbD_of_lt _ (by omega)]
    · rw [lowBits_getLsbD, decide_eq_false (by omega), Bool.false_and]
  · exact ⟨_, exec_getBits_of_not_inRange (by omega) s, raise_completes s .invalidArgument⟩

/-- Settles O27: the snapshot is delivered, and 8 advances move it into `hi`. -/
theorem getByteDeliversTheSnapshotOfLo : Obligations.GetByteDeliversTheSnapshotOfLo := by
  refine ⟨encodedInstructionDecodesToItself .getByte, fun w s hop hne => endsInError_of_formatN rfl hop hne s,
    fun s => ⟨_, exec_getByte s, (hiAfter_add_eight 0 s.hi s.lo).symm, rfl, rfl, complete_completedWith s _, rfl,
      fun hlo => ⟨hlo, hlo, ?_⟩⟩⟩
  rw [State.complete_lo, hlo, loAfter_of_zero]

/-- Settles O28: the same low bits are the result and what enters `hi`. -/
theorem getBitsResultIsTheLowBitsOfLo : Obligations.GetBitsResultIsTheLowBitsOfLo := fun _ s hpos hle =>
  ⟨_, exec_getBits_of_inRange ⟨hpos, hle⟩ s, rfl, hiAfter_of_le_eight hle s.hi s.lo, rfl⟩

/-- Settles O29: `get_bits 8` is `get_byte`, whose effect has a closed form. -/
theorem getBitsEightEqualsGetByte : Obligations.GetBitsEightEqualsGetByte := fun s =>
  ⟨exec_getBits_eight s, _, (exec_getBits_eight s).trans (exec_getByte s), rfl, rfl, rfl, rfl⟩

/-- Settles O30: each `get_byte` returns the `lo` it finds and leaves it in `hi`. -/
theorem secondGetByteReturnsLoAfterEightAdvances : Obligations.SecondGetByteReturnsLoAfterEightAdvances := by
  intro s
  refine ⟨_, _, _, exec_getByte s, exec_getByte _, (exec_getBits_eight s).trans (exec_getByte s), rfl, rfl, rfl, rfl,
    fun _ hlo => ⟨hlo, ?_⟩⟩
  have horacle : loAfter 8 0xA5#8 = 0xD5#8 := by decide
  rw [State.complete_rspData, State.complete_lo, hlo, horacle]

end Sys2Proof.Machine
end

section
/-! ## `last_value` along a list of words (spec R146) -/
namespace Sys2Proof.Machine

/-- Settles O32, by induction on the words: each leaves its delivery, or the value held before it. -/
theorem lastValueIsTheMostRecentDelivery : Obligations.LastValueIsTheMostRecentDelivery := by
  intro ws
  induction ws with
  | nil => exact fun s => ⟨s, rfl, rfl⟩
  | cons w ws ih =>
    intro s
    have hrun := runWord_eq_effect w s
    obtain ⟨t, ht, hlast⟩ := ih (s.complete (wordEffect s.params s.hi s.lo s.lastValue w))
    rw [lastValue_of_runWord hrun] at hlast
    simp only [runWords, lastDelivery, hrun]
    exact ⟨t, ht, hlast⟩

end Sys2Proof.Machine
end

/-! # Errors, the invariant, and the responses of a run (spec 60_exceptions.md; O33 to O37, O45, O52, O56, O57) -/

section
/-! ## The invariant (spec R164, R197) -/
namespace Sys2Proof.Machine

/-- A completion reports one of the three codes and leaves the block idle, whatever state it completes. -/
theorem complete_inv {s : State} (hparams : s.params.wellFormed = true) (x : Effect) : (s.complete x).Inv :=
  ⟨bne_iff_ne.2 (Status.code_ne_three x.status), rfl, hparams⟩

theorem clockEdge_inv {e : EdgeInput} {s t : State} (hs : s.Inv) (h : clockEdge e s = .next t) : t.Inv := by
  obtain ⟨hstatus, -, hparams⟩ := hs
  rcases clockEdge_next h with ⟨-, rfl⟩ | ⟨-, w, left, rfl, -⟩ | ⟨-, w, -, rfl, -⟩ | ⟨-, hidle, -, rfl⟩
  · exact resetWith_inv hparams s.cycle s.inputs
  · exact ⟨hstatus, by simp [State.sequencerLegal], hparams⟩
  · exact complete_inv hparams _
  · exact ⟨hstatus, by simp [State.sequencerLegal, hidle], hparams⟩

/-- Taking the coming input touches nothing that the invariant speaks of. -/
theorem tick_inv {s t : State} (hs : s.Inv) (h : tick s = .next t) : t.Inv :=
  clockEdge_inv (s := s.takeInput) hs h

/-- Settles O52: an edge keeps the invariant in each of its outcomes, and a step is made of ticks. -/
theorem stepKeepsTheInvariant : Obligations.StepKeepsTheInvariant :=
  ⟨fun _ _ _ => clockEdge_inv, fun _ _ => tick_inv, fun _ _ => transaction_induction State.Inv fun _ _ => tick_inv⟩

end Sys2Proof.Machine
end

section
/-! ## What an error writes, and which words end in one (spec R160, R162) -/
namespace Sys2Proof.Machine

theorem endsInError_of_not_wellFormedWord {w : CmdWord} (hw : wellFormedWord w = false) (s : State) :
    EndsInError w s .illegalCommand := by
  rcases Nat.lt_or_ge (opField w).toNat 8 with hop | hop
  · exact endsInError_of_unusedFieldNonzero hop ((wellFormedWord_eq_false_iff hop).1 hw) s
  · have hd := decode_of_reservedOpcode hop
    exact endsInError_of_runWord ((runWord_of_decode_instr hd s).trans (exec_reserved _ s))

theorem endsInError_of_count {w : CmdWord} {n : Byte} (hd : decode w = .instr (.getBits n))
    (hn : ¬(1 ≤ n.toNat ∧ n.toNat ≤ 8)) (s : State) : EndsInError w s .invalidArgument :=
  endsInError_of_runWord ((runWord_of_decode_instr hd s).trans (exec_getBits_of_not_inRange hn s))

/-- Settles O33: an ill-formed word and a count out of range each raise their error. -/
theorem errorsWriteOnlyTheResponse : Obligations.ErrorsWriteOnlyTheResponse :=
  ⟨fun _ _ => rfl, fun _ s => ⟨fun hw => endsInError_of_not_wellFormedWord hw s,
    fun _ hd hn => endsInError_of_count hd hn s⟩⟩

theorem count_out_of_range_iff (n : Byte) : ¬(1 ≤ n.toNat ∧ n.toNat ≤ 8) ↔ n = 0#8 ∨ 9 ≤ n.toNat := by
  have hzero : n = 0#8 ↔ n.toNat = 0 := BitVec.toNat_inj.symm
  rw [hzero]
  omega

/-- Settles O34: a word reports the code exactly when its count is out of range, and then it ends in the error. -/
theorem invalidArgumentIsRaisedByGetBitsAlone : Obligations.InvalidArgumentIsRaisedByGetBitsAlone := by
  intro w s
  have hrun := runWord_eq_effect w s
  have hcode := ((code_eq_code_iff _ .invalidArgument).trans
    (wordEffect_invalidArgument_iff s.params s.hi s.lo s.lastValue w)).trans (countOutOfRange_iff w)
  refine ⟨_, hrun, hcode.trans (by simp only [count_out_of_range_iff]), fun hinvalid => ?_⟩
  obtain ⟨n, hd, hn⟩ := hcode.1 hinvalid
  obtain ⟨t, ht, hsame, -, hdata, -⟩ := endsInError_of_count hd hn s
  cases hrun.symm.trans ht
  exact ⟨hdata, hsame⟩

end Sys2Proof.Machine
end

section
/-! ## The degenerate cases (spec R163) -/
namespace Sys2Proof.Machine

/-- An instruction that reports OK with data 0x00 completes so. -/
theorem exec_completes_ok {i : Instr} {s : State} (hstatus : reportedStatus i = .ok)
    (hdata : (effectOf s.params s.hi s.lo s.lastValue i).data = 0x00#8) :
    ∃ t, exec i s = .next t ∧ CompletedWith s t .ok 0x00#8 := by
  refine ⟨_, exec_eq_effect i s, ?_⟩
  rw [← hstatus, ← hdata, ← effectOf_status s.params s.hi s.lo s.lastValue]
  exact complete_completedWith s _

theorem zext8_outputBit_of_zero : zext8 (outputBit 0x00#8) = 0x00#8 := by decide

/-- From `lo = 0x00` every packed bit is 0. -/
theorem exec_getBits_of_lo_zero {n : Byte} {s : State} (hn : 1 ≤ n.toNat ∧ n.toNat ≤ 8) (hlo : s.lo = 0x00#8) :
    ∃ t, exec (.getBits n) s = .next t ∧ CompletedWith s t .ok 0x00#8 := by
  have hbits : lowBits n.toNat s.lo = 0x00#8 := by rw [hlo, lowBits, BitVec.zero_and]
  refine ⟨_, exec_getBits_of_inRange hn s, ?_⟩
  rw [hbits]
  exact complete_completedWith s _

/-- Settles O35: from `lo = 0x00` each advancing command has data 0x00, and the other cases write what was there. -/
theorem degenerateCasesAreNotErrors : Obligations.DegenerateCasesAreNotErrors := by
  refine ⟨fun s i hlo hi => ?_, fun s => ?_, fun s => exec_completes_ok rfl rfl, fun s hne => ?_⟩
  · rcases hi with rfl | ⟨n, rfl⟩ | rfl | rfl | ⟨n, rfl, hn⟩
    · exact exec_completes_ok rfl (by rw [hlo]; exact zext8_outputBit_of_zero)
    · exact exec_completes_ok rfl rfl
    · exact exec_completes_ok rfl (by rw [hlo]; exact zext8_outputBit_of_zero)
    · exact exec_completes_ok rfl hlo
    · exact exec_getBits_of_lo_zero hn hlo
  · exact ⟨_, exec_eq_effect (.advanceBits 0#8) s, complete_completedWith s _, rfl, rfl, rfl⟩
  · exact ⟨_, exec_fixSeed_of_not_zero hne, complete_completedWith s _, rfl, rfl, rfl⟩

end Sys2Proof.Machine
end

section
/-! ## The order of the checks, and the status port (spec R164, R165, I10) -/
namespace Sys2Proof.Machine

/-- The status of what the decoder answers: a word's status depends on no state (spec R164). -/
def decodedStatus : Decoded → Status
  | .instr i => reportedStatus i
  | .illegal _ => .illegalCommand

theorem wordEffect_status (p : Params) (h x v : Byte) (w : CmdWord) :
    (wordEffect p h x v w).status = decodedStatus (decode w) := by
  unfold wordEffect
  cases decode w with
  | instr i => exact effectOf_status p h x v i
  | illegal e => rfl

theorem code_decodedStatus_formatN {i : Instr} (hi : reportedStatus i = .ok) (a b : Byte) :
    (decodedStatus (decodeFormatN i a b)).code = if a ≠ 0#8 ∨ b ≠ 0#8 then 2#2 else 0#2 := by
  by_cases hzero : a = 0#8 ∧ b = 0#8
  · rw [decodeFormatN, if_pos hzero, if_neg (by simp [hzero]), decodedStatus, hi]
    rfl
  · rw [decodeFormatN, if_neg hzero, if_pos (Decidable.not_and_iff_not_or_not.1 hzero)]
    rfl

theorem code_decodedStatus_formatC (mk : Byte → Instr) (a b : Byte) :
    (decodedStatus (decodeFormatC mk a b)).code = if a ≠ 0#8 then 2#2 else (reportedStatus (mk b)).code := by
  by_cases hzero : a = 0#8
  · rw [decodeFormatC, if_pos hzero, if_neg (not_not_intro hzero)]
    rfl
  · rw [decodeFormatC, if_neg hzero, if_pos hzero]
    rfl

theorem code_reportedStatus_getBits (n : Byte) :
    (reportedStatus (.getBits n)).code = if n = 0#8 ∨ 9 ≤ n.toNat then 1#2 else 0#2 := by
  simp only [reportedStatus, countOperand, countInRange_iff, ← count_out_of_range_iff, ite_not]
  exact apply_ite Status.code ..

/-- Settles O36: the chain of checks is the decoder's, opcode by opcode, with the range of `get_bits` at its end. -/
theorem firstFailingCheckDecidesTheStatus : Obligations.FirstFailingCheckDecidesTheStatus := by
  refine ⟨fun w s => ⟨_, runWord_eq_effect w s, ?_⟩, fun e s hr => clockEdge_of_rst hr s⟩
  rw [State.complete_rspStatus, wordEffect_status]
  rcases Nat.lt_or_ge (opField w).toNat 8 with hop | hop
  · by_cases hrsv : rsvField w = 0#4
    · have hN := fun i hi => code_decodedStatus_formatN (i := i) hi (aField w) (bField w)
      have hadvance : ∀ n, (reportedStatus (.advanceBits n)).code = 0#2 := fun _ => rfl
      rcases opcode_cases hop with h | h | h | h | h | h | h | h
      · simp [decode, h, hrsv, hN .init rfl]
      · simp [decode, h, hrsv, decodeFormatS, decodedStatus, reportedStatus, Status.code]
      · simp [decode, h, hrsv, hN .fixSeed rfl]
      · simp [decode, h, hrsv, hN .advanceBit rfl]
      · simp [decode, h, hrsv, code_decodedStatus_formatC, hadvance]
      · simp [decode, h, hrsv, hN .getBit rfl]
      · simp [decode, h, hrsv, code_decodedStatus_formatC, code_reportedStatus_getBits]
      · simp [decode, h, hrsv, hN .getByte rfl]
    · simp [decode, Nat.not_le.2 hop, hrsv, decodedStatus, Status.code]
  · rw [if_pos hop, decode_of_reservedOpcode hop]
    rfl

theorem ofCode_code (st : Status) : Status.ofCode st.code = some st := by
  cases st <;> rfl

theorem exists_code_eq {c : BitVec 2} (hc : c ≠ 3#2) : ∃ st : Status, st.code = c := by
  have hcases : c = 0#2 ∨ c = 1#2 ∨ c = 2#2 := by revert c; decide
  rcases hcases with rfl | rfl | rfl
  · exact ⟨.ok, rfl⟩
  · exact ⟨.invalidArgument, rfl⟩
  · exact ⟨.illegalCommand, rfl⟩

theorem readStatus_of_code {s : State} {st : Status} (h : st.code = s.rspStatus) : s.readStatus = .next st := by
  rw [State.readStatus, ← h, ofCode_code]

theorem exists_readStatus {s : State} (hs : s.Inv) : ∃ st, s.readStatus = .next st ∧ st.code = s.rspStatus := by
  obtain ⟨hstatus, -, -⟩ := hs
  obtain ⟨st, hst⟩ := exists_code_eq (bne_iff_ne.1 hstatus)
  exact ⟨st, readStatus_of_code hst, hst⟩

/-- Settles O37: every code but 3 is that of a status, and a completed word wrote such a code. -/
theorem statusPortReadsALegalCode : Obligations.StatusPortReadsALegalCode := by
  refine ⟨fun s => exists_readStatus, fun w s => ?_, fun s hthree => ?_⟩
  · exact ⟨_, _, runWord_eq_effect w s, readStatus_of_code rfl, rfl⟩
  · rw [State.readStatus, hthree]
    rfl

end Sys2Proof.Machine
end

section
/-! ## An idle block with nothing presented (spec R174) -/
namespace Sys2Proof.Machine

theorem nextInput_quiet {s : State} (h : ∀ e ∈ s.inputs, e.rst = false ∧ e.cmdValid = false) :
    s.nextInput.rst = false ∧ s.nextInput.cmdValid = false := by
  unfold State.nextInput
  cases hi : s.inputs with
  | nil => exact ⟨rfl, rfl⟩
  | cons e rest => exact h e (by simp [hi])

theorem tick_quiet {s : State} (hq : s.inFlight = none) (h : ∀ e ∈ s.inputs, e.rst = false ∧ e.cmdValid = false) :
    tick s = .next s.takeInput.holdIdle := by
  obtain ⟨hrst, hvalid⟩ := nextInput_quiet h
  simp [tick, clockEdge, hrst, hvalid, hq]

/-- Quiet edges end the pulse, take their inputs and count their cycles, and write nothing else. -/
theorem ticks_quiet (n : Nat) (s : State) (hq : s.inFlight = none)
    (h : ∀ e ∈ s.inputs, e.rst = false ∧ e.cmdValid = false) :
    ticks (n + 1) s = .next
      { s with rspValid := false, inputs := s.inputs.drop (n + 1), cycle := s.cycle + (n + 1) } := by
  induction n generalizing s with
  | zero => simp only [ticks, tick_quiet hq h, Nat.zero_add, List.drop_one]; rfl
  | succ n ih =>
    have hrest := ih s.takeInput.holdIdle hq fun e he => h e (List.mem_of_mem_tail he)
    have hcycle : s.cycle + 1 + (n + 1) = s.cycle + (n + 1 + 1) := by omega
    rw [ticks, tick_quiet hq h]
    simp only [hrest, State.holdIdle_inputs, State.takeInput_inputs, State.holdIdle_cycle, State.takeInput_cycle,
      List.drop_tail, hcycle]
    rfl

/-- Settles O45: no edges change nothing, and one or more are `ticks_quiet`. -/
theorem idleBlockHoldsItsState : Obligations.IdleBlockHoldsItsState := by
  intro n s hq h
  cases n with
  | zero => exact ⟨s, rfl, ⟨rfl, rfl, rfl⟩, rfl, rfl, hq, rfl, rfl, fun hpos => absurd hpos (Nat.lt_irrefl 0)⟩
  | succ n => exact ⟨_, ticks_quiet n s hq h, ⟨rfl, rfl, rfl⟩, rfl, rfl, hq, rfl, rfl, fun _ => rfl⟩

end Sys2Proof.Machine
end

section
/-! ## The responses of a host's words (spec R175, R176) -/
namespace Sys2Proof.Machine

/-- The state a command word leaves, as a value: `runWord` always completes. -/
def State.afterWord (s : State) (w : CmdWord) : State :=
  s.complete (wordEffect s.params s.hi s.lo s.lastValue w)

theorem runWord_eq_afterWord (w : CmdWord) (s : State) : runWord w s = .next (s.afterWord w) :=
  runWord_eq_effect w s

theorem runWords_eq_foldl (ws : List CmdWord) (s : State) : runWords ws s = .next (ws.foldl State.afterWord s) := by
  induction ws generalizing s with
  | nil => rfl
  | cons w ws ih => simp only [runWords, runWord_eq_afterWord, ih, List.foldl_cons]

theorem foldl_afterWord_inv (ws : List CmdWord) {s : State} (hs : s.Inv) : (ws.foldl State.afterWord s).Inv :=
  List.foldlRecOn ws State.afterWord hs fun _ ⟨_, _, hparams⟩ _ _ => complete_inv hparams _

/-- The responses of words done as atomic transitions, in order. -/
def wordResponses : List CmdWord → State → List Response
  | [], _ => []
  | w :: ws, s => ⟨(s.afterWord w).rspStatus, (s.afterWord w).rspData⟩ :: wordResponses ws (s.afterWord w)

@[simp] theorem length_wordResponses (ws : List CmdWord) (s : State) : (wordResponses ws s).length = ws.length := by
  induction ws generalizing s with
  | nil => rfl
  | cons w ws ih => simp only [wordResponses, List.length_cons, ih]

/-- The response at place `i` is that of the state the first `i + 1` words leave. -/
theorem wordResponses_getElem? {ws : List CmdWord} {i : Nat} (hi : i < ws.length) (s : State) :
    (wordResponses ws s)[i]? = some ⟨((ws.take (i + 1)).foldl State.afterWord s).rspStatus,
      ((ws.take (i + 1)).foldl State.afterWord s).rspData⟩ := by
  induction ws generalizing s i with
  | nil => exact absurd hi (Nat.not_lt_zero i)
  | cons w ws ih =>
    cases i with
    | zero => rfl
    | succ i => exact ih (Nat.lt_of_succ_lt_succ hi) _

theorem responsesOf_succ {n : Nat} {s t u : State} {rs : List Response} (hstep : step s = .next t)
    (hrest : responsesOf n t = .next (rs, u)) : responsesOf (n + 1) s = .next (t.response.toList ++ rs, u) := by
  simp only [responsesOf, hstep, hrest]

/-- ONE STEP, ONE WORD, ONE RESPONSE: the clocked block, presented `ws` at its own pace, gives the responses of the
words as atomic transitions and ends where they end, but for the cycle's number and the inputs, now taken. -/
theorem responsesOf_hostSchedule (ws : List CmdWord) (s : State) (cycle : Nat) (hq : s.inFlight = none) :
    ∃ cycle', responsesOf ws.length { s with cycle := cycle, inputs := hostSchedule s.params ws } =
      .next (wordResponses ws s, { ws.foldl State.afterWord s with cycle := cycle', inputs := [] }) := by
  induction ws generalizing s cycle with
  | nil => exact ⟨cycle, rfl⟩
  | cons w ws ih =>
    have hstep := step_scheduled
      (s := { s with cycle := cycle, inputs := hostSchedule s.params (w :: ws) })
      (rest := hostSchedule s.params ws) (w := w) hq rfl
    rw [runWord_eq_afterWord] at hstep
    obtain ⟨cycle', hrest⟩ := ih (s.afterWord w) (cycle + max 1 (latencyOf s.params w)) rfl
    exact ⟨cycle', responsesOf_succ hstep hrest⟩

/-- Settles O56: the run's responses are `wordResponses`: one to a word, read at its place. -/
theorem everyAcceptedCommandGivesOneResponse : Obligations.EveryAcceptedCommandGivesOneResponse := by
  intro ws s hq
  obtain ⟨cycle, hrun⟩ := responsesOf_hostSchedule ws s s.cycle hq
  exact ⟨_, _, hrun, length_wordResponses ws s,
    fun i hi => ⟨_, runWords_eq_foldl _ s, wordResponses_getElem? hi s⟩⟩

/-- A run that ends idle with no input left shows the registers and the responses (spec R176). -/
theorem observeRun_of_ended {n : Nat} {s t : State} {rs : List Response} {st : Status}
    (hrun : responsesOf n s = .next (rs, t)) (hq : t.inFlight = none) (hinputs : t.inputs = [])
    (hst : t.readStatus = .next st) :
    observeRun n s = .next (some ⟨t.hi, t.lo, t.lastValue, t.rspData, st, rs⟩) := by
  have hready : t.cmdReady = true := by simp [State.cmdReady, State.busy, hq]
  have hended : t.runEnded = true := by simp [State.runEnded, hready, hinputs]
  simp only [observeRun, hrun, hended, hst, if_true, obsPort_of_ready hready, State.observed]

/-- Settles O57: the run ends in the state of the atomic transitions, whose status the invariant makes legal. -/
theorem endedRunShowsTheFinalStateAndResponses : Obligations.EndedRunShowsTheFinalStateAndResponses := by
  intro ws s hs hq
  have ht := runWords_eq_foldl ws s
  obtain ⟨-, hidle⟩ := runWords_idle hq ht
  obtain ⟨st, hread, hcode⟩ := exists_readStatus (foldl_afterWord_inv ws hs)
  obtain ⟨cycle, hrun⟩ := responsesOf_hostSchedule ws s s.cycle hq
  exact ⟨_, _, ht, observeRun_of_ended hrun hidle rfl hread, rfl, rfl, rfl, rfl, hcode, length_wordResponses ws s⟩

end Sys2Proof.Machine
end

/-! # Reset, the protocol and its timing (spec 70_reset_and_hazards.md; O40 to O44, O46, O48, O53, O54) -/

section
/-! ## A live generator stays live (spec R128, R201) -/
namespace Sys2Proof.Machine

/-- A legal sequencer ends its transaction idle, whatever the host drives. -/
theorem step_ends_idle {s t : State} (hs : s.Inv) (h : step s = .next t) : t.inFlight = none := by
  rcases htick : tick s with u | f | r
  · obtain ⟨-, hsequencer, -⟩ := tick_inv hs htick
    rw [step_of_tick htick] at h
    exact settle_ends_idle h (Nat.le_refl _) hsequencer
  · simp [step, transaction, htick] at h
  · simp [step, transaction, htick] at h

/-- Past the end of its list of inputs the host is quiet, so what holds of the list and of a quiet edge holds of the
next one. -/
theorem nextInput_of_forall {P : EdgeInput → Prop} (hquiet : P .quiet) {s : State} (h : ∀ e ∈ s.inputs, P e) :
    P s.nextInput := by
  unfold State.nextInput
  cases hi : s.inputs with
  | nil => exact hquiet
  | cons e rest => exact h e (by simp [hi])

/-- Every instruction but a seed with low byte 0x00 leaves a live `lo`: it loads a conforming seed, keeps `lo`, or
advances it along the nonzero cycle. -/
theorem effectOf_lo_ne_zero {p : Params} (hp : p.wellFormed = true) {x : Byte} (hx : x ≠ 0x00#8) (h v : Byte)
    {i : Instr} (hseed : ∀ hi lo, i = .setSeed hi lo → lo ≠ 0x00#8) : (effectOf p h x v i).lo ≠ 0x00#8 := by
  obtain ⟨hdefault, hfallback⟩ := seeds_loByte_ne_zero hp
  cases i with
  | init => exact hdefault
  | setSeed hi lo => exact hseed hi lo rfl
  | fixSeed =>
    rw [effectOf]
    split
    · exact hfallback
    · exact hx
  | advanceBit => exact loAfter_ne_zero hx 1
  | advanceBits n => exact loAfter_ne_zero hx _
  | getBit => exact loAfter_ne_zero hx 1
  | getBits n =>
    rw [effectOf]
    split
    · exact loAfter_ne_zero hx _
    · exact hx
  | getByte => exact loAfter_ne_zero hx 8
  | reserved any => exact hx

theorem wordEffect_lo_ne_zero {p : Params} (hp : p.wellFormed = true) {x : Byte} (hx : x ≠ 0x00#8) (h v : Byte)
    {w : CmdWord} (hw : (CmdPins.stable w).keepsLive = true) : (wordEffect p h x v w).lo ≠ 0x00#8 := by
  unfold wordEffect
  cases hd : decode w with
  | illegal e => exact hx
  | instr i =>
    refine effectOf_lo_ne_zero hp hx h v ?_
    rintro hi lo rfl
    simpa [CmdPins.keepsLive, hd] using hw

/-- What every edge of a transaction keeps: beside a live generator and a host that presents no dead seed, that no
dead seed is in flight. -/
structure StaysLive (s : State) : Prop where
  params : s.params.wellFormed = true
  lo : s.lo ≠ 0x00#8
  command : ∀ q, s.inFlight = some q → (CmdPins.stable q.command).keepsLive = true
  inputs : ∀ e ∈ s.inputs, e.keepsLive = true

/-- The word that an edge without reset works on is the one in flight or the one presented; `A` and `B` are the
conditions on the latency that tell a busy cycle from a completion. -/
theorem keepsLive_of_current {e : EdgeInput} {s : State} {w : CmdWord} {A : Sequencer → Prop} {B : Prop}
    (hs : StaysLive s) (he : e.keepsLive = true) (hr : e.rst = false)
    (hw : (∃ q, s.inFlight = some q ∧ q.command = w ∧ A q) ∨
      (s.inFlight = none ∧ e.cmdValid = true ∧ e.cmdWord = .stable w ∧ B)) :
    (CmdPins.stable w).keepsLive = true := by
  rcases hw with ⟨q, hq, rfl, -⟩ | ⟨-, hv, hpins, -⟩
  · exact hs.command q hq
  · simpa [EdgeInput.keepsLive, hr, hv, hpins] using he

theorem clockEdge_staysLive {e : EdgeInput} {s t : State} (hs : StaysLive s) (he : e.keepsLive = true)
    (h : clockEdge e s = .next t) : StaysLive t := by
  have ⟨hparams, hlo, hcommand, hinputs⟩ := hs
  rcases clockEdge_next h with ⟨-, rfl⟩ | ⟨hr, w, left, rfl, hw⟩ | ⟨hr, w, -, rfl, hw⟩ | ⟨-, -, -, rfl⟩
  · exact ⟨hparams, (seeds_loByte_ne_zero hparams).1, nofun, hinputs⟩
  · refine ⟨hparams, hlo, ?_, hinputs⟩
    rintro q ⟨⟩
    exact keepsLive_of_current hs he hr hw
  · exact ⟨hparams, wordEffect_lo_ne_zero hparams hlo s.hi s.lastValue (keepsLive_of_current hs he hr hw), nofun,
      hinputs⟩
  · exact ⟨hparams, hlo, hcommand, hinputs⟩

theorem tick_staysLive {s t : State} (hs : StaysLive s) (h : tick s = .next t) : StaysLive t := by
  have htaken : StaysLive s.takeInput :=
    ⟨hs.params, hs.lo, hs.command, fun e he => hs.inputs e (List.mem_of_mem_tail he)⟩
  exact clockEdge_staysLive htaken (nextInput_of_forall (P := fun e => e.keepsLive = true) rfl hs.inputs) h

/-- Settles O54: an idle live block has no dead seed in flight, and the ticks of the step keep it so. -/
theorem stepKeepsTheGeneratorLive : Obligations.StepKeepsTheGeneratorLive := by
  intro s t hs hidle hlive hinputs h
  have ⟨_, _, hparams⟩ := hs
  have hstart : StaysLive s := ⟨hparams, bne_iff_ne.1 hlive, by simp [hidle], hinputs⟩
  have hend : StaysLive t := transaction_induction StaysLive (fun _ _ => tick_staysLive) hstart h
  have hinv : t.Inv := transaction_induction State.Inv (fun _ _ => tick_inv) hs h
  exact ⟨hinv, step_ends_idle hs h, bne_iff_ne.2 hend.lo, hend.inputs⟩

end Sys2Proof.Machine
end

section
/-! ## What one edge does with `cmd_valid` and `cmd_word` (spec R196, R197, R198, R200, R204) -/
namespace Sys2Proof.Machine

theorem cmdReady_iff (s : State) : s.cmdReady = true ↔ s.inFlight = none := by
  simp [State.cmdReady, State.busy]

theorem clockEdge_accepts {e : EdgeInput} {s : State} {w : CmdWord} (hr : e.rst = false) (hq : s.inFlight = none)
    (hv : e.cmdValid = true) (hw : e.cmdWord = .stable w) : clockEdge e s = acceptWord w s := by
  simp [clockEdge, hr, hq, hv, hw]

theorem clockEdge_of_inFlight {e : EdgeInput} {s : State} {q : Sequencer} (hr : e.rst = false)
    (hq : s.inFlight = some q) : clockEdge e s = continueWord q s := by
  simp [clockEdge, hr, hq]

theorem clockEdge_of_idle {e : EdgeInput} {s : State} (hr : e.rst = false) (hq : s.inFlight = none)
    (hv : e.cmdValid = false) : clockEdge e s = .next s.holdIdle := by
  simp [clockEdge, hr, hq, hv]

/-- Settles O40: a ready edge is `acceptWord`, by its latency; and at the other edges neither pin is read. -/
theorem commandsAreAcceptedOnlyAtReadyEdges : Obligations.CommandsAreAcceptedOnlyAtReadyEdges := by
  constructor
  · intro s w e hready hr hv hw
    rw [clockEdge_accepts hr ((cmdReady_iff s).1 hready) hv hw]
    refine ⟨acceptWord_of_latency_le_one, fun hlong => ?_⟩
    obtain ⟨left, hL⟩ : ∃ left, latencyOf s.params w = left + 2 := ⟨_, (Nat.sub_add_cancel hlong).symm⟩
    rw [hL]
    exact ⟨_, _, acceptWord_of_latency hL, rfl, rfl, rfl, rfl, rfl, rfl⟩
  · rintro s e e' (⟨hr, hr'⟩ | ⟨hr, hr', hignored⟩)
    · rw [clockEdge_of_rst hr, clockEdge_of_rst hr']
    · rcases hq : s.inFlight with _ | q
      · rcases hignored with hbusy | ⟨hv, hv'⟩
        · rw [(cmdReady_iff s).2 hq] at hbusy
          cases hbusy
        · rw [clockEdge_of_idle hr hq hv, clockEdge_of_idle hr' hq hv']
      · rw [clockEdge_of_inFlight hr hq, clockEdge_of_inFlight hr' hq]

/-- The refusal among the outcomes of an edge: no other one is a refusal. -/
theorem clockEdge_refused {e : EdgeInput} {s : State} {r : Refusal} (h : clockEdge e s = .refused r) :
    e.rst = false ∧ s.inFlight = none ∧ e.cmdValid = true ∧ e.cmdWord = .unstable ∧ r = .unstableCommandWord := by
  rcases clockEdge_cases e s with ⟨-, he⟩ | ⟨-, w, left, he, -⟩ | ⟨-, w, he, -⟩ | ⟨-, -, -, he⟩ |
    ⟨hr, hq, hv, hw, he⟩
  · cases h.symm.trans he
  · cases h.symm.trans he
  · cases h.symm.trans (he.trans (runWord_eq_effect w s))
  · cases h.symm.trans he
  · cases h.symm.trans he
    exact ⟨hr, hq, hv, hw, rfl⟩

/-- Settles O41: an unstable word is refused where it would be accepted, and nothing else is. -/
theorem onlyAnUnstableAcceptedWordIsRefused : Obligations.OnlyAnUnstableAcceptedWordIsRefused := by
  intro e s
  refine ⟨⟨fun ⟨r, h⟩ => ?_, fun ⟨hr, hready, hv, hw⟩ => ⟨.unstableCommandWord, ?_⟩⟩, fun r h => ?_,
    fun ⟨f, h⟩ => clockEdge_not_fault e s f h⟩
  · obtain ⟨hr, hq, hv, hw, -⟩ := clockEdge_refused h
    exact ⟨hr, (cmdReady_iff s).2 hq, hv, hw⟩
  · simp [clockEdge, hr, (cmdReady_iff s).1 hready, hv, hw]
  · obtain ⟨-, -, -, -, hreason⟩ := clockEdge_refused h
    exact hreason

/-- Settles O43: of the outcomes of an edge only a completion raises `rsp_valid`. -/
theorem responsePulseMeansACompletion : Obligations.ResponsePulseMeansACompletion := by
  intro e s t h hpulse
  rcases clockEdge_next h with ⟨-, rfl⟩ | ⟨-, w, left, rfl, -⟩ | ⟨hr, w, hrun, rfl, hw⟩ | ⟨-, -, -, rfl⟩
  · cases hpulse
  · cases hpulse
  · refine ⟨hr, rfl, ?_⟩
    rcases hw with ⟨q, hq, rfl, hlast⟩ | ⟨hq, hv, hpins, hL⟩
    · exact .inl ⟨q, hq, hlast, hrun⟩
    · exact .inr ⟨w, hq, hv, hpins, hL, hrun⟩
  · cases hpulse

/-- Settles O44: without reset and without a pulse an edge is a busy cycle or an idle one, and both hold. -/
theorem registersHoldBetweenCompletions : Obligations.RegistersHoldBetweenCompletions := by
  intro e s t h hr hpulse
  rcases clockEdge_next h with ⟨hrst, -⟩ | ⟨-, w, left, rfl, -⟩ | ⟨-, w, -, rfl, -⟩ | ⟨-, -, -, rfl⟩
  · cases hr.symm.trans hrst
  · exact ⟨rfl, rfl, ⟨rfl, rfl, rfl⟩, rfl, rfl, rfl⟩
  · cases hpulse
  · exact ⟨rfl, rfl, ⟨rfl, rfl, rfl⟩, rfl, rfl, rfl⟩

end Sys2Proof.Machine
end

section
/-! ## A command's window, edge by edge (spec R190, R197, R198, R207) -/
namespace Sys2Proof.Machine

theorem ticks_succ_last {n : Nat} {s t : State} (h : ticks n s = .next t) : ticks (n + 1) s = tick t := by
  induction n generalizing s with
  | zero =>
    obtain rfl : s = t := Host.Outcome.next.inj h
    simp only [ticks]
    cases tick s <;> rfl
  | succ n ih =>
    rw [ticks] at h ⊢
    split at h
    · next u hu => exact ih h
    · cases h
    · cases h

theorem takeInput_eq_afterWindow {s : State} {e : EdgeInput} {rest : List EdgeInput} (hi : s.inputs = e :: rest) :
    s.takeInput = s.afterWindow 1 rest := by
  simp [State.takeInput, State.afterWindow, hi]

theorem afterWindow_takeInput (s : State) (k : Nat) (rest : List EdgeInput) :
    (s.afterWindow (k + 1) rest).takeInput = s.afterWindow (k + 2) rest := by
  simp [State.takeInput, State.afterWindow, Nat.add_assoc]

/-- After the `k + 1`-th edge of a window without reset, and before its last one, the next input is of the window. -/
theorem nextInput_rst_in_window {rest : List EdgeInput} {cycles : Nat} (hr : ∀ e ∈ rest.take (cycles - 1), e.rst = false)
    {k : Nat} (hk : k + 1 < cycles) (s : State) (w : CmdWord) (left : Nat) :
    ((s.afterWindow (k + 1) rest).holdBusy w left).nextInput.rst = false := by
  refine nextInput_rst (n := 0) fun e (he : e ∈ (rest.drop k).take 1) => hr e ?_
  rw [List.take_drop] at he
  exact List.take_subset_take_left rest (by omega) (List.mem_of_mem_drop he)

/-- In the cycle after the `k + 1`-th edge of a longer window the block is busy, its inputs taken and its cycles
counted, and the rest of it as at acceptance (spec R197). -/
theorem ticks_in_window {s : State} {w : CmdWord} {rest : List EdgeInput} (hq : s.inFlight = none)
    (hi : s.inputs = .present w :: rest) (hr : ∀ e ∈ rest.take (latencyOf s.params w - 1), e.rst = false)
    {k left : Nat} (hL : latencyOf s.params w = k + left + 2) :
    ticks (k + 1) s = .next ((s.afterWindow (k + 1) rest).holdBusy w (left + 1)) := by
  induction k generalizing left with
  | zero =>
    have haccept : acceptWord w s.takeInput = .next (s.takeInput.holdBusy w (left + 1)) :=
      acceptWord_of_latency (hL.trans (by omega))
    rw [ticks_succ_last rfl, tick_present hq hi, haccept, takeInput_eq_afterWindow hi]
  | succ k ih =>
    have hbusy := ih (left := left + 1) (by omega)
    have hrst := nextInput_rst_in_window hr (k := k) (by omega) s w (left + 2)
    rw [ticks_succ_last hbusy, (tick_busy _ _ rfl hrst).1 left rfl, ← afterWindow_takeInput]
    rfl

/-- The last edge of a window is the command's effect as a whole (spec R198). -/
theorem ticks_window {s : State} {w : CmdWord} {rest : List EdgeInput} (hq : s.inFlight = none)
    (hi : s.inputs = .present w :: rest) (hr : ∀ e ∈ rest.take (latencyOf s.params w - 1), e.rst = false)
    (hpos : 1 ≤ latencyOf s.params w) :
    ticks (latencyOf s.params w) s = runWord w (s.afterWindow (latencyOf s.params w) rest) := by
  rcases hL : latencyOf s.params w with _ | _ | k
  · omega
  · have haccept : acceptWord w s.takeInput = runWord w s.takeInput := acceptWord_of_latency_le_one (Nat.le_of_eq hL)
    rw [ticks_succ_last rfl, tick_present hq hi, haccept, takeInput_eq_afterWindow hi]
  · have hbusy := ticks_in_window (k := k) (left := 0) hq hi hr hL
    have hrst := nextInput_rst_in_window hr (k := k) (by omega) s w 1
    rw [ticks_succ_last hbusy, (tick_busy _ _ rfl hrst).2 (Nat.le_refl 1), ← afterWindow_takeInput]
    exact runWord_forgets w (s.afterWindow (k + 1) rest).takeInput false _

/-- Settles O42: the window is busy up to its last edge, which is the command's effect; and a pulse after the next edge
would be a completion there, of a command in flight, which there is none, or of one accepted with `LAT = 1`. -/
theorem acceptedCommandCompletesAfterItsLatency : Obligations.AcceptedCommandCompletesAfterItsLatency := by
  intro s w rest hq hi hpos hr
  refine ⟨fun j hj hlt => ?_, ?_⟩
  · obtain ⟨k, rfl⟩ : ∃ k, j = k + 1 := ⟨j - 1, by omega⟩
    obtain ⟨left, hL⟩ : ∃ left, latencyOf s.params w = k + left + 2 := ⟨latencyOf s.params w - (k + 2), by omega⟩
    exact ⟨_, ticks_in_window hq hi hr hL, rfl, rfl, rfl, rfl⟩
  · have hlast := ticks_window hq hi hr hpos
    rw [runWord_eq_afterWord] at hlast
    refine ⟨_, _, hlast, runWord_eq_afterWord w s, rfl, rfl, rfl, rfl, rfl, rfl, rfl, rfl, ?_, fun e v h hnext => ?_⟩
    · exact congrArg (s.cycle + ·) (Nat.max_eq_right hpos)
    · refine Bool.eq_false_iff.2 fun hpulse => ?_
      obtain ⟨hrst, -, ⟨q, hbusy, -⟩ | ⟨w', -, hv, hpins, hL, -⟩⟩ := responsePulseMeansACompletion e _ v h hpulse
      · cases hbusy
      · exact hnext ⟨hrst, hv, w', hpins, hL⟩

/-- A reset among the edges of a command in flight discards it, whatever edges of it are still to come. -/
theorem settle_reset {s : State} {w : CmdWord} {n : Nat} {work : SequencerWork} {before rest : List EdgeInput}
    {e : EdgeInput} (hq : s.inFlight = some ⟨w, n + 1, work⟩) (hi : s.inputs = before ++ e :: rest)
    (hbefore : ∀ b ∈ before, b.rst = false) (he : e.rst = true) (hn : before.length ≤ n) :
    settle (n + 1) s = .next (State.resetWith s.params (s.cycle + before.length + 1) rest) := by
  have hbusy : s.busy = true := by simp [State.busy, hq]
  induction before generalizing s n work with
  | nil =>
    have htick : tick s = .next s.takeInput.applyReset := by simp [tick, State.nextInput, hi, clockEdge_of_rst he]
    rw [settle_of_tick n hbusy htick, settle_idle n _ rfl]
    simp [State.applyReset, hi]
  | cons b before ih =>
    obtain ⟨m, rfl⟩ : ∃ m, n = m + 1 := ⟨n - 1, by rw [List.length_cons] at hn; omega⟩
    have hrst : s.nextInput.rst = false := by simp [State.nextInput, hi, hbefore b (by simp)]
    have htick := (tick_busy s _ hq hrst).1 m rfl
    rw [settle_of_tick (m + 1) hbusy htick, ih rfl (by simp [hi]) (fun b hb => hbefore b (by simp [hb]))
      (by simpa using hn) rfl]
    have hcycle : s.cycle + 1 + before.length + 1 = s.cycle + (b :: before).length + 1 := by
      rw [List.length_cons]; omega
    rw [← hcycle]
    rfl

/-- Settles O46: the acceptance leaves `LAT - 1` edges to go, and the reset comes at one of them. -/
theorem resetInFlightAbortsTheCommand : Obligations.ResetInFlightAbortsTheCommand := by
  intro s w before rest e hq hi hbefore he hlt
  obtain ⟨n, hL⟩ : ∃ n, latencyOf s.params w = n + 2 := ⟨latencyOf s.params w - 2, by omega⟩
  have htick := tick_present hq hi
  rw [acceptWord_of_latency (s := s.takeInput) hL] at htick
  rw [step_of_tick htick]
  have hinputs : (s.takeInput.holdBusy w (n + 1)).inputs = before ++ e :: rest := by simp [hi]
  have hcycle : s.cycle + 1 + before.length + 1 = s.cycle + before.length + 2 := by omega
  rw [← hcycle]
  exact settle_reset rfl hinputs hbefore he (by omega)

end Sys2Proof.Machine
end

section
/-! ## A step goes on while `cmd_word` is stable (spec R204) -/
namespace Sys2Proof.Machine

/-- A property under which a tick always goes on, and which it keeps, makes a step go on and keep it. -/
theorem step_progress {P : State → Prop} (hP : ∀ s, P s → ∃ t, tick s = .next t ∧ P t) {s : State} (hs : P s) :
    ∃ t, step s = .next t ∧ P t := by
  have hsettle : ∀ n u, P u → ∃ t, settle n u = .next t ∧ P t := by
    intro n
    induction n with
    | zero => exact fun u hu => ⟨u, rfl, hu⟩
    | succ n ih =>
      intro u hu
      rcases hq : u.inFlight with _ | q
      · exact ⟨u, settle_idle _ u hq, hu⟩
      · obtain ⟨v, hv, hPv⟩ := hP u hu
        rw [settle_of_tick n (by simp [State.busy, hq]) hv]
        exact ih v hPv
  obtain ⟨u, hu, hPu⟩ := hP s hs
  rw [step_of_tick hu]
  exact hsettle _ u hPu

theorem settle_not_fault (n : Nat) (s : State) (f : Fault) : settle n s ≠ .fault f := by
  induction n generalizing s with
  | zero => simp [settle]
  | succ n ih =>
    rw [settle]
    split
    · split
      · exact ih _
      · next g hg => exact absurd hg (clockEdge_not_fault _ _ g)
      · simp
    · simp

theorem step_not_fault (s : State) (f : Fault) : step s ≠ .fault f := by
  rw [step, transaction]
  split
  · exact settle_not_fault _ _ f
  · next g hg => exact absurd hg (clockEdge_not_fault _ _ g)
  · simp

theorem tick_of_stableWords {s : State} (hs : ∀ e ∈ s.inputs, e.stableWord = true) :
    ∃ t, tick s = .next t ∧ ∀ e ∈ t.inputs, e.stableWord = true := by
  have hnext := nextInput_of_forall (P := fun e => e.stableWord = true) rfl hs
  obtain ⟨t, ht⟩ := clockEdge_completes s.nextInput s.takeInput hnext
  obtain ⟨-, -, htail⟩ := tick_surroundings ht
  exact ⟨t, ht, fun e he => hs e (List.mem_of_mem_tail (htail ▸ he))⟩

/-- Settles O53: every tick goes on where the words are stable, and no tick is a fault. -/
theorem stepCompletesWhileWordsAreStable : Obligations.StepCompletesWhileWordsAreStable :=
  ⟨fun _ => step_progress (P := fun s => ∀ e ∈ s.inputs, e.stableWord = true) fun _ => tick_of_stableWords,
    step_not_fault⟩

end Sys2Proof.Machine
end

section
/-! ## The default latencies (spec R199) -/
namespace Sys2Proof.Machine

theorem latencyOf_encode {p : Params} (hp : p.latencyOverrides = []) (i : Instr) :
    latencyOf p (encode i) = defaultInstrLatency i := by
  simp [latencyOf, hp, defaultLatency, encodedInstructionDecodesToItself i]

/-- An ill-formed word is of the reserved class, or the decoder rejects it. -/
theorem defaultLatency_of_not_wellFormedWord {w : CmdWord} (hw : wellFormedWord w = false) :
    defaultLatency w = 1 := by
  unfold defaultLatency
  cases hd : decode w with
  | illegal e => rfl
  | instr i =>
    have hi : i.wellFormed = false := (wellFormedWord_of_decode_instr hd).symm.trans hw
    cases i with
    | reserved any => rfl
    | _ => cases hi

theorem defaultInstrLatency_getBits (n : Byte) :
    defaultInstrLatency (.getBits n) = if 1 ≤ n.toNat ∧ n.toNat ≤ 8 then n.toNat else 1 := by
  simp only [defaultInstrLatency, countOperand, countInRange_iff]

/-- Settles O48: with no overrides the latency of an encoding is the table's, instruction by instruction. -/
theorem defaultLatencyTable : Obligations.DefaultLatencyTable := by
  intro p hp
  have htable := latencyOf_encode hp
  refine ⟨htable .init, fun hi lo => htable (.setSeed hi lo), htable .fixSeed, htable .advanceBit, htable .getBit,
    fun n => htable (.advanceBits n), fun n => (htable (.getBits n)).trans (defaultInstrLatency_getBits n),
    htable .getByte, fun w hw => ?_⟩
  rw [← defaultLatency_of_not_wellFormedWord hw]
  simp [latencyOf, hp]

end Sys2Proof.Machine
end
